-- ==== Sys2Proof/Word.lean ====
section
/-! DEFINITION. The two widths the block has: the 32-bit register and command word (spec/10_state.md R20) and the 64-bit
encoder word (spec/00_scope.md R10). -/

namespace Sys2Proof

/-- A register or a command word: 32 bits, bit 0 least significant (R12, R20). -/
abbrev Word := BitVec 32

/-- An encoder operand or result: 64 bits (R10). -/
abbrev DWord := BitVec 64

end Sys2Proof
end

