-- ==== Sys2Proof/Syntax.lean ====
section
/-! DEFINITION. What the host can send: the eight commands of spec/30_encoding.md R83, and the lines of a host program
(R89) with the platform's reset among them (spec/20_memory.md R50). -/

namespace Sys2Proof

/-- The eight commands, one constructor per row of the opcode map (R83). A command word carries no operand (R82): every
operand comes from a register the command fixes. -/
inductive Instr where
  /-- `NOP`: clears the status fields and starts no job (R170). -/
  | nop
  /-- `ENC`: encodes ENC_IN into ENC_OUT (R103). -/
  | enc
  /-- `GCD2.E`: two operands, subtractive Euclidean (R136). -/
  | gcd2E
  /-- `GCD2.S`: two operands, binary (R137). -/
  | gcd2S
  /-- `GCD3.E`: three operands, subtractive Euclidean (R138). -/
  | gcd3E
  /-- `GCD3.S`: three operands, binary (R139). -/
  | gcd3S
  /-- `GCDN.E`: GCD_COUNT operands, subtractive Euclidean (R140). -/
  | gcdnE
  /-- `GCDN.S`: GCD_COUNT operands, binary (R141). -/
  | gcdnS
deriving DecidableEq, Repr

/-- The pair algorithm the ALG bit selects (R81, R134). -/
inductive Alg where
  | euclid
  | stein
deriving DecidableEq, Repr

/-- The registers of the window (spec/10_state.md R20), with `reserved` for every offset the map does not assign (R33). -/
inductive Reg where
  | cmd
  | status
  | gcdCap
  | gcdCount
  | encInLo
  | encInHi
  | encOutLo
  | encOutHi
  | gcdRes
  | gcdBuf (i : Nat)
  | reserved
deriving DecidableEq, Repr

/-- The access widths that the block does not have (spec/20_memory.md R53). -/
inductive OddWidth where
  | w8
  | w16
  | w64
deriving DecidableEq, Repr

/-- One line of what reaches the block from outside: a host transaction of R52, the polling line of R89, an access of
another width (R53), or the platform's reset (R210). Offsets are byte offsets from `P_BASE` (R8, R14);
Machine/Platform.lean takes the same lines with platform addresses. -/
inductive HostLine where
  /-- `RD off`, that is `MemRead(off, 4)`. -/
  | rd (off : Nat)
  /-- `WR off, v`, that is `MemWrite(off, 4, v)`. -/
  | wr (off : Nat) (v : Word)
  /-- `POLL off, mask, value`: `RD off` again until `(result & mask) = value`. -/
  | poll (off : Nat) (mask value : Word)
  /-- An access of 8, 16 or 64 bits, a host protocol violation. -/
  | oddAccess (width : OddWidth) (off : Nat)
  /-- The platform asserts the reset input. -/
  | reset
deriving DecidableEq, Repr

end Sys2Proof
end

