-- ==== Sys2Proof/Decode.lean ====
section
/-! DEFINITION. The command word: its fields, the decoder and the encoder (spec/30_encoding.md R81, R83, R84, R86). -/

namespace Sys2Proof

/-- Why a word is no command, the three groups of R86. -/
inductive IllegalWord where
  /-- A bit of 31..9 is set. -/
  | reservedBits
  /-- OP is 0x00 or 0x01 and ALG is 1. -/
  | algWithoutPair
  /-- OP is 0x05 to 0xFF. -/
  | unassignedOp
deriving DecidableEq, Repr

/-- What a 32-bit word decodes to: a command, or ILLEGAL with its reason (R84). -/
inductive Decoded where
  | command (i : Instr)
  | illegal (why : IllegalWord)
deriving DecidableEq, Repr

/-- The field OP, bits 7..0 (R81). -/
def cmdOp (v : Word) : BitVec 8 := v.extractLsb' 0 8

/-- The field ALG, bit 8 (R81). -/
def cmdAlg (v : Word) : BitVec 1 := v.extractLsb' 8 1

/-- The field RSVD, bits 31..9 (R81). -/
def cmdRsvd (v : Word) : BitVec 23 := v.extractLsb' 9 23

/-- DECODE of R84, total on every word. -/
def decode (v : Word) : Decoded :=
  if cmdRsvd v ≠ 0 then .illegal .reservedBits
  else
    match (cmdOp v).toNat with
    | 0x00 => if cmdAlg v = 0 then .command .nop else .illegal .algWithoutPair
    | 0x01 => if cmdAlg v = 0 then .command .enc else .illegal .algWithoutPair
    | 0x02 => if cmdAlg v = 0 then .command .gcd2E else .command .gcd2S
    | 0x03 => if cmdAlg v = 0 then .command .gcd3E else .command .gcd3S
    | 0x04 => if cmdAlg v = 0 then .command .gcdnE else .command .gcdnS
    | _ => .illegal .unassignedOp

/-- A command word put together from OP and ALG, with RSVD = 0 (R81). -/
def commandWord (op : BitVec 8) (alg : BitVec 1) : Word := (0 : BitVec 23) ++ alg ++ op

/-- The word of each command (the table of R83). -/
def encode : Instr → Word
  | .nop => commandWord 0x00 0
  | .enc => commandWord 0x01 0
  | .gcd2E => commandWord 0x02 0
  | .gcd2S => commandWord 0x02 1
  | .gcd3E => commandWord 0x03 0
  | .gcd3S => commandWord 0x03 1
  | .gcdnE => commandWord 0x04 0
  | .gcdnS => commandWord 0x04 1

/-- The 32-bit word whose low `nbits` bits are those of `w` and whose other bits are 0: a row's bits laid out as the one
command word the hardware has (R80). -/
def tableWord (nbits w : Nat) : Word := BitVec.ofNat 32 (w % 2 ^ nbits)

/-- The command the decoder reads from a table row's bits, `none` where the word is ILLEGAL. -/
def decodeTableWord (nbits w : Nat) : Option Instr :=
  match decode (tableWord nbits w) with
  | .command i => some i
  | .illegal _ => none

end Sys2Proof
end

