-- ==== Sys2Proof/Config.lean ====
section
/-! DEFINITION. What an implementation fixes: the bounds on the buffer capacity `P_NMAX`, the register window, its
place on a platform, and the one free value of the spec, the latency of a job. -/

namespace Sys2Proof

/-- The least capacity `P_NMAX` may have (spec/00_scope.md R7). -/
def Config.pNMaxLeast : Nat := 3

/-- The greatest capacity `P_NMAX` may have (R7). -/
def Config.pNMaxMost : Nat := 960

/-- The capacity the spec takes where a model fixes one (R7). A state carries its own capacity, the length of its buffer;
this is the length `State.reset` has (notes/assumptions/2.md). -/
def Config.pNMaxAtReset : Nat := 64

/-- The bytes of the register window at `P_BASE` (R20). -/
def Config.windowBytes : Nat := 0x1000

/-- The parameters of the platform, which spec/00_scope.md R8 leaves `OPEN`: the definitions that need one take it as an
argument (Machine/Platform.lean). -/
structure Platform where
  /-- `P_BASE`: the address at which the platform places the block's 4 KiB register window (R8). -/
  pBase : Nat
deriving DecidableEq, Repr

/-- FREE VALUE (spec/00_scope.md R11, spec/70_reset_and_hazards.md R219): how many host lines the environment lets pass
between the acceptance of the job with draw number `n` and its completion. It has no body, so nothing can be proved of it
(notes/assumptions/3.md). -/
opaque Config.latency (n : Nat) : Nat

end Sys2Proof
end

