-- ==== Sys2Proof/Machine/State.lean ====
section
/-! DEFINITION. The state of the block (spec/10_state.md) as plain data, the reasons a step can stop, and the state right
after reset (R40, R210). -/

namespace Sys2Proof.Machine

/-- The values STATUS.ERRCODE takes (R24). The codes 4 to 15 are never produced (spec/93_implementation_defined.md I6) and
so are no values of this type. -/
inductive ErrCode where
  /-- 0: the last accepted command had no error. -/
  | none
  /-- 1: GCDN with GCD_COUNT < 2 (R183). -/
  | invalidArity
  /-- 2: GCDN with GCD_COUNT > P_NMAX (R184). -/
  | capacity
  /-- 3: the word written to CMD decodes to no command (R185). -/
  | illegalCmd
deriving DecidableEq, Repr

/-- A job with the operands it latched at acceptance (R34, R35). R34's `GcdJob(kind, alg, ops)` is the three last
constructors: the kind is the constructor, and the fixed-arity kinds hold exactly their two or three operands. -/
inductive Job where
  | enc (w : DWord)
  | gcd2 (alg : Alg) (a b : Word)
  | gcd3 (alg : Alg) (a b c : Word)
  | gcdn (alg : Alg) (ops : List Word)
deriving DecidableEq, Repr

/-- The whole state. The first eleven fields are the block's, each named in spec/10_state.md; the last five are the
model's own and stand for the world outside the block (INVENTORY.md, State). -/
structure State where
  /-- STATUS.ERRCODE (R24). STATUS.ERR is read from it (R23). -/
  errcode : ErrCode
  /-- STATUS.OVERRUN (R25). -/
  overrun : Bool
  /-- GCD_COUNT (R28). -/
  gcdCount : Word
  /-- ENC_IN_LO (R29). -/
  encInLo : Word
  /-- ENC_IN_HI (R29). -/
  encInHi : Word
  /-- ENC_OUT_LO (R30). -/
  encOutLo : Word
  /-- ENC_OUT_HI (R30). -/
  encOutHi : Word
  /-- GCD_RES (R31). -/
  gcdRes : Word
  /-- GCD_BUF, entry 0 first (R32). Its length is the parameter `P_NMAX` (R7), which GCD_CAP reads (R27). -/
  gcdBuf : List Word
  /-- The hidden state `pend` (R34). STATUS.BUSY is read from it (R22). -/
  pend : Option Job
  /-- MODEL'S OWN: what the host and the platform do next, in the order of R63. -/
  host : List HostLine
  /-- MODEL'S OWN: the values reads have returned to the host, the newest first (R221). -/
  returned : List Word
  /-- MODEL'S OWN: the drawn latency of the job in `pend`, in host lines still to pass before it completes (R219). -/
  latency : Nat
  /-- MODEL'S OWN: latencies that the environment has already drawn for the next jobs, the next job's first. -/
  latencies : List Nat
  /-- MODEL'S OWN: how many latencies have been taken from the free value `Config.latency`. -/
  draws : Nat
deriving DecidableEq, Repr

/-- Reasons for a fault: there are none. The block has no trap (R180), no behaviour of it is `stuck`
(spec/93_implementation_defined.md, end of part 1), and its errors are values of STATUS.ERRCODE. -/
inductive Fault where
deriving DecidableEq, Repr

/-- Reasons for a refusal: acts of the host that the model admits no run past (R53, R221), and an instruction not yet
modelled. -/
inductive Refusal where
  /-- Raised by `exec` for an instruction with no meaning in this model (none at present). Safe: the run stops. -/
  | notModelled (mnemonic : String)
  /-- Raised by a host line that is an access of 8, 16 or 64 bits (R53). Safe: the run stops, where a real bus would do
  something the spec does not say. -/
  | accessWidth
  /-- Raised by a host line at an offset that is no multiple of 4 (R53). Safe, as `accessWidth`. -/
  | misaligned
  /-- Raised by a host line at an offset beyond 0xFFF, which does not reach the block (R53, I3). Safe: the run stops,
  where the platform would do something of its own. -/
  | outsideWindow
deriving DecidableEq, Repr

/-- The machine right after reset: every register as R40 has it, with the capacity of R7, no job, and nothing yet asked
of the block from outside. -/
def State.reset : State where
  errcode := .none
  overrun := false
  gcdCount := 0
  encInLo := 0
  encInHi := 0
  encOutLo := 0
  encOutHi := 0
  gcdRes := 0
  gcdBuf := List.replicate Config.pNMaxAtReset 0
  pend := none
  host := []
  returned := []
  latency := 0
  latencies := []
  draws := 0

end Sys2Proof.Machine
end

