-- ==== Sys2Proof/Machine/Flags.lean ====
section
/-! DEFINITION. The STATUS register: the fields that are read from other state, and the word they make
(spec/10_state.md R22 to R26). -/

namespace Sys2Proof.Machine

/-- The number of an error code (the table of R24). -/
def ErrCode.code : ErrCode → BitVec 4
  | .none => 0
  | .invalidArity => 1
  | .capacity => 2
  | .illegalCmd => 3

/-- STATUS.BUSY: a job is in progress (R22). -/
def State.busy (s : State) : Bool := s.pend.isSome

/-- STATUS.ERR: ERRCODE is not 0 (R23). -/
def State.err (s : State) : Bool := s.errcode.code != 0

/-- `zext_32` of a one-bit field. -/
def zextBit (b : Bool) : Word := (BitVec.ofBool b).setWidth 32

/-- The STATUS register as it reads (R26). -/
def State.statusWord (s : State) : Word :=
  (zextBit s.overrun <<< 8) ||| (s.errcode.code.setWidth 32 <<< 4) ||| (zextBit s.err <<< 1) ||| zextBit s.busy

end Sys2Proof.Machine
end

