-- ==== Sys2Proof/Machine/Operands.lean ====
section
/-! DEFINITION. Where a command's operands come from (spec/30_encoding.md R82, spec/10_state.md R35) and how a word is read
as a number (spec/00_scope.md R13). -/

namespace Sys2Proof.Machine

/-- The capacity `P_NMAX`: the number of entries of GCD_BUF (R7). -/
def State.pNMax (s : State) : Nat := s.gcdBuf.length

/-- ENC_IN, that is `ENC_IN_HI ++ ENC_IN_LO` (R29). -/
def State.encIn (s : State) : DWord := s.encInHi ++ s.encInLo

/-- ENC_OUT, that is `ENC_OUT_HI ++ ENC_OUT_LO` (R30). -/
def State.encOut (s : State) : DWord := s.encOutHi ++ s.encOutLo

/-- Entry `i` of GCD_BUF (R32). An index past the capacity, which no rule reads, gives 0. -/
def State.bufEntry (s : State) (i : Nat) : Word := s.gcdBuf.getD i 0

/-- The first `n` entries of GCD_BUF, entry 0 first: the snapshot of a GCDN job (R35). -/
def State.bufEntries (s : State) (n : Nat) : List Word := (List.range n).map s.bufEntry

/-- The list length of a GCDN command, `uint(GCD_COUNT)` (R28). -/
def State.count (s : State) : Nat := s.gcdCount.toNat

/-- The half of a 64-bit word at the lower offset, bits 31..0 (R59(c)). -/
def loHalf (w : DWord) : Word := w.extractLsb' 0 32

/-- The half of a 64-bit word at the higher offset, bits 63..32 (R59(c)). -/
def hiHalf (w : DWord) : Word := w.extractLsb' 32 32

/-- Byte lane `k` of a word on a platform bus that numbers lanes: bits 8k+7..8k (R59(d)). -/
def byteLane (v : Word) (k : Nat) : BitVec 8 := v.extractLsb' (8 * k) 8

/-- The signed value of an operand, `sint(v)` (R13, R130). -/
def sint (v : Word) : Int := v.toInt

end Sys2Proof.Machine
end

