-- ==== Sys2Proof/Machine/Ops.lean ====
section
/-! DEFINITION. The named operations every meaning is made of: the register file (spec/20_memory.md R54, R55), recording an
error (spec/60_exceptions.md R182), discarding and accepting a command (spec/30_encoding.md R85), and reset
(spec/70_reset_and_hazards.md R210). -/

namespace Sys2Proof.Machine

/-- The register at byte offset `off` of a block with capacity `nMax` (the map of R20). -/
def regAt (nMax off : Nat) : Reg :=
  if off = 0x000 then .cmd
  else if off = 0x004 then .status
  else if off = 0x008 then .gcdCap
  else if off = 0x00C then .gcdCount
  else if off = 0x010 then .encInLo
  else if off = 0x014 then .encInHi
  else if off = 0x018 then .encOutLo
  else if off = 0x01C then .encOutHi
  else if off = 0x020 then .gcdRes
  else if 0x100 ≤ off ∧ off % 4 = 0 ∧ (off - 0x100) / 4 < nMax then .gcdBuf ((off - 0x100) / 4)
  else .reserved

/-- The value a register reads as (READ of R54). -/
def readRegister (s : State) : Reg → Word
  | .cmd => 0
  | .status => s.statusWord
  | .gcdCap => BitVec.ofNat 32 s.pNMax
  | .gcdCount => s.gcdCount
  | .encInLo => s.encInLo
  | .encInHi => s.encInHi
  | .encOutLo => s.encOutLo
  | .encOutHi => s.encOutHi
  | .gcdRes => s.gcdRes
  | .gcdBuf i => s.bufEntry i
  | .reserved => 0

/-- READ(off) of R54: what `MemRead(off, 4)` returns. -/
def readWindow (s : State) (off : Nat) : Word := readRegister s (regAt s.pNMax off)

/-- What a write of `v` to a register other than CMD does (WRITE of R55): the data registers take the value, and a
read-only or reserved one ignores it. The write to CMD is `issue`. -/
def writeRegister (s : State) (v : Word) : Reg → State
  | .gcdCount => { s with gcdCount := v }
  | .encInLo => { s with encInLo := v }
  | .encInHi => { s with encInHi := v }
  | .gcdBuf i => { s with gcdBuf := s.gcdBuf.set i v }
  | .cmd | .status | .gcdCap | .encOutLo | .encOutHi | .gcdRes | .reserved => s

/-- RAISE of R182: an error is recorded in ERRCODE and nothing else happens. The block's one kind of exception entry; there
is no return from it (R190), only the next accepted command or reset, which writes ERRCODE again. -/
def raiseError (code : ErrCode) (s : State) : State := { s with errcode := code }

/-- A word written to CMD while BUSY = 1 is discarded, and OVERRUN is set (R85, R186). -/
def discardCommand (s : State) : State := { s with overrun := true }

/-- A word written to CMD while BUSY = 0 clears OVERRUN before it is decoded (R25, R85). -/
def clearOverrun (s : State) : State := { s with overrun := false }

/-- The latency of a job is drawn at its acceptance (R11, R219): the next of the draws already made, or a fresh free
value (notes/assumptions/3.md). -/
def drawLatency (s : State) : State :=
  match s.latencies with
  | n :: rest => { s with latency := n, latencies := rest }
  | [] => { s with latency := Config.latency s.draws, draws := s.draws + 1 }

/-- An accept procedure that starts a job: ERRCODE is cleared and the job, with its snapshot, is pending (R85, R35). -/
def startJob (job : Job) (s : State) : State := { drawLatency s with errcode := .none, pend := some job }

/-- A command presented at CMD (R85): discarded while BUSY = 1, else OVERRUN is cleared and its accept procedure runs. -/
def presentCommand (accept : State → State) (s : State) : Host.Outcome State Fault Refusal :=
  if s.busy then .next (discardCommand s) else .next (accept (clearOverrun s))

/-- Reset (R210): every register to its value of R40 and no job; the capacity is a constant and stays. What the host does
next, and what it has been told, are not the block's and stay (notes/assumptions/6.md). -/
def resetBlock (s : State) : State :=
  { s with
    errcode := .none, overrun := false, gcdCount := 0
    encInLo := 0, encInHi := 0, encOutLo := 0, encOutHi := 0, gcdRes := 0
    gcdBuf := List.replicate s.pNMax 0, pend := none }

end Sys2Proof.Machine
end

