-- ==== Sys2Proof/Machine/Control.lean ====
section
/-! DEFINITION. The control command NOP (spec/42_control.md R170). -/

namespace Sys2Proof.Machine

/-- ACCEPT_NOP of R170: ERRCODE is cleared; no job starts. -/
def acceptNop (s : State) : State := { s with errcode := .none }

/-- `NOP` written to CMD (R170). -/
def execNop (s : State) : Host.Outcome State Fault Refusal := presentCommand acceptNop s

end Sys2Proof.Machine
end

