-- ==== Sys2Proof/Machine/Encoder.lean ====
section
/-! DEFINITION. The Float Bit Encoder (spec/40_encoder.md): the function ENCODE by the seven steps of R104 and R105, and the
command ENC. The rationals of R105 are held as integers scaled by 2^1074, which R113 shows exact and allows; the loops run
on fuel that R116 bounds (notes/assumptions/7.md, notes/assumptions/8.md). -/

namespace Sys2Proof.Machine

/-- The classes of an input word (R101). -/
inductive FloatClass where
  | pzero
  | nzero
  | subnormal
  | normal
  | pinf
  | ninf
  | nan
deriving DecidableEq, Repr

/-- The sign bit `s = w[63]` (R100). -/
def signField (w : DWord) : BitVec 1 := w.extractLsb' 63 1

/-- The biased exponent `E = w[62:52]` (R100). -/
def exponentField (w : DWord) : BitVec 11 := w.extractLsb' 52 11

/-- The fraction `F = w[51:0]` (R100). -/
def fractionField (w : DWord) : BitVec 52 := w.extractLsb' 0 52

/-- CLASS(w), the table of R101. -/
def classify (w : DWord) : FloatClass :=
  if exponentField w = 0 then
    if fractionField w = 0 then (if signField w = 0 then .pzero else .nzero) else .subnormal
  else if exponentField w = 2047 then
    if fractionField w = 0 then (if signField w = 0 then .pinf else .ninf) else .nan
  else .normal

/-- The number 1 in the scale of this file: 2^1074 (R113). -/
def scaledOne : Nat := 2 ^ 1074

/-- `|VALUE(w)|` of R102 in the scale 2^1074: `(1 + F/2^52) * 2^(E-1023)` for a NORMAL word and `(F/2^52) * 2^(-1022)`
for a SUBNORMAL one. -/
def scaledMagnitude (w : DWord) : Nat :=
  if exponentField w = 0 then (fractionField w).toNat
  else (2 ^ 52 + (fractionField w).toNat) * 2 ^ ((exponentField w).toNat - 1)

/-- VALUE(w) of R102 in the scale 2^1074. -/
def scaledValue (w : DWord) : Int :=
  if signField w = 0 then (scaledMagnitude w : Int) else -(scaledMagnitude w : Int)

/-- Step 3, upward (R105, R106): halve while `m >= 2`. -/
def normaliseUp : Nat → Nat → Int → Nat × Int
  | 0, m, e => (m, e)
  | fuel + 1, m, e => if 2 * scaledOne ≤ m then normaliseUp fuel (m / 2) (e + 1) else (m, e)

/-- Step 3, downward (R105, R107): double while `m < 1`; the guard fires when the descent reaches e = -1023, with one
final halving. The third value is `sub`. -/
def normaliseDown : Nat → Nat → Int → Nat × Int × Bool
  | 0, m, e => (m, e, false)
  | fuel + 1, m, e =>
    if m < scaledOne then
      if e - 1 = -1023 then ((m * 2) / 2, e - 1, true) else normaliseDown fuel (m * 2) (e - 1)
    else (m, e, false)

/-- The fraction the digits are taken from (steps 3, 5 and 6; R109). -/
def selectFraction (m : Nat) (sub : Bool) : Nat :=
  if sub then m else if m = scaledOne then 0 else m - scaledOne

/-- Step 6 (R110): up to `room` binary digits of `f`, most significant first, stopping when `f` reaches 0. -/
def extractDigits : Nat → Nat → List Bool
  | 0, _ => []
  | room + 1, f =>
    if f = 0 then []
    else if scaledOne ≤ f * 2 then true :: extractDigits room (f * 2 - scaledOne)
    else false :: extractDigits room (f * 2)

/-- Steps 5 and 7 (R111): right-pad with 0 to 52 digits. -/
def padDigits (b : List Bool) : List Bool := b ++ List.replicate (52 - b.length) false

/-- The number whose binary digits are `b`, most significant first. -/
def digitsValue (b : List Bool) : Nat := b.foldl (fun n d => 2 * n + d.toNat) 0

/-- ENCODE_FINITE of R105. -/
def encodeFinite (w : DWord) : DWord :=
  let x := scaledValue w
  let s : BitVec 1 := if x < 0 then 1 else 0
  let up := normaliseUp 1023 x.natAbs 0
  let down := normaliseDown 1023 up.1 up.2
  let ex : BitVec 11 := BitVec.ofInt 11 (down.2.1 + 1023)
  let b := padDigits (extractDigits 52 (selectFraction down.1 down.2.2))
  s ++ ex ++ BitVec.ofNat 52 (digitsValue b)

/-- ENCODE of R104: the five special patterns, else ENCODE_FINITE. -/
def encodeFloat (w : DWord) : DWord :=
  match classify w with
  | .pzero => 0x0000_0000_0000_0000
  | .nzero => 0x8000_0000_0000_0000
  | .nan => 0xFFF8_0000_0000_0000
  | .pinf => 0x7FF0_0000_0000_0000
  | .ninf => 0xFFF0_0000_0000_0000
  | .normal => encodeFinite w
  | .subnormal => encodeFinite w

/-- The BitString of a result word: character `k` is '1' when bit `63 - k` is 1 (R111, D38). -/
def bitString (r : DWord) : List Char := (List.range 64).map fun k => if r.getLsbD (63 - k) then '1' else '0'

/-- ACCEPT_ENC of R103: the job latches both halves of ENC_IN. -/
def acceptEnc (s : State) : State := startJob (.enc s.encIn) s

/-- `ENC` written to CMD (R103). -/
def execEnc (s : State) : Host.Outcome State Fault Refusal := presentCommand acceptEnc s

end Sys2Proof.Machine
end

