-- ==== Sys2Proof/Machine/Gcd.lean ====
section
/-! DEFINITION. The GCD engine (spec/41_gcd.md): the pair algorithms EUCLID (R132) and STEIN (R133), the combinator REDUCE
(R135), the result of a job (R142), and the six commands. The arithmetic is on unbounded numbers (R131); the loops run on
fuel that R148 bounds (notes/assumptions/8.md). -/

namespace Sys2Proof.Machine

/-- The loop of EUCLID (R132): replace the larger by the difference until both are equal. -/
def euclidLoop : Nat → Nat → Nat → Nat
  | 0, a, _ => a
  | fuel + 1, a, b =>
    if a = b then a
    else if b < a then euclidLoop fuel (a - b) b
    else euclidLoop fuel a (b - a)

/-- EUCLID(x, y) of R132. -/
def euclid (x y : Int) : Nat :=
  let a := x.natAbs
  let b := y.natAbs
  if a = 0 then b else if b = 0 then a else euclidLoop (a + b) a b

/-- STEIN on magnitudes (R133), one unit of fuel a call. -/
def steinLoop : Nat → Nat → Nat → Nat
  | 0, a, _ => a
  | fuel + 1, a, b =>
    if a = b then a
    else if a = 0 then b
    else if b = 0 then a
    else if a % 2 = 0 ∧ b % 2 = 0 then 2 * steinLoop fuel (a / 2) (b / 2)
    else if a % 2 = 0 then steinLoop fuel (a / 2) b
    else if b % 2 = 0 then steinLoop fuel a (b / 2)
    else steinLoop fuel (((a : Int) - (b : Int)).natAbs / 2) (min a b)

/-- STEIN(x, y) of R133. -/
def stein (x y : Int) : Nat := steinLoop (x.natAbs + y.natAbs) x.natAbs y.natAbs

/-- PAIR(alg) of R134. -/
def pairGcd : Alg → Int → Int → Nat
  | .euclid => euclid
  | .stein => stein

/-- One round of REDUCE (R135): disjoint neighbours are combined, and an unpaired last element is carried forward
unchanged. -/
def reduceRound (g : Int → Int → Nat) : List Int → List Int
  | a :: b :: rest => (g a b : Int) :: reduceRound g rest
  | l => l

/-- REDUCE of R135 on fuel: rounds until two elements are left. R135 asks for two elements or more; a shorter list, which
no job holds, gives the magnitude of what it has. -/
def reduceLoop (g : Int → Int → Nat) : Nat → List Int → Nat
  | _, [] => 0
  | _, [a] => a.natAbs
  | _, [a, b] => g a b
  | 0, a :: _ :: _ :: _ => a.natAbs
  | fuel + 1, a :: b :: c :: rest => reduceLoop g fuel (reduceRound g (a :: b :: c :: rest))

/-- REDUCE(l, g) of R135: a round shortens the list, so its length is fuel enough. -/
def reduce (l : List Int) (g : Int → Int → Nat) : Nat := reduceLoop g l.length l

/-- GCDRESULT of R142; an ENC job has none and is not asked for one. -/
def gcdResult : Job → Nat
  | .enc _ => 0
  | .gcd2 alg a b => pairGcd alg (sint a) (sint b)
  | .gcd3 alg a b c => pairGcd alg (pairGcd alg (sint a) (sint b)) (sint c)
  | .gcdn alg ops => reduce (ops.map sint) (pairGcd alg)

/-- ACCEPT_GCD2(alg) of R136. -/
def acceptGcd2 (alg : Alg) (s : State) : State := startJob (.gcd2 alg (s.bufEntry 0) (s.bufEntry 1)) s

/-- ACCEPT_GCD3(alg) of R138. -/
def acceptGcd3 (alg : Alg) (s : State) : State :=
  startJob (.gcd3 alg (s.bufEntry 0) (s.bufEntry 1) (s.bufEntry 2)) s

/-- ACCEPT_GCDN(alg) of R140: the two checks in R188's order, then the job. -/
def acceptGcdn (alg : Alg) (s : State) : State :=
  if s.count < 2 then raiseError .invalidArity s
  else if s.pNMax < s.count then raiseError .capacity s
  else startJob (.gcdn alg (s.bufEntries s.count)) s

/-- `GCD2.E` written to CMD (R136). -/
def execGcd2E (s : State) : Host.Outcome State Fault Refusal := presentCommand (acceptGcd2 .euclid) s

/-- `GCD2.S` written to CMD (R137). -/
def execGcd2S (s : State) : Host.Outcome State Fault Refusal := presentCommand (acceptGcd2 .stein) s

/-- `GCD3.E` written to CMD (R138). -/
def execGcd3E (s : State) : Host.Outcome State Fault Refusal := presentCommand (acceptGcd3 .euclid) s

/-- `GCD3.S` written to CMD (R139). -/
def execGcd3S (s : State) : Host.Outcome State Fault Refusal := presentCommand (acceptGcd3 .stein) s

/-- `GCDN.E` written to CMD (R140). -/
def execGcdnE (s : State) : Host.Outcome State Fault Refusal := presentCommand (acceptGcdn .euclid) s

/-- `GCDN.S` written to CMD (R141). -/
def execGcdnS (s : State) : Host.Outcome State Fault Refusal := presentCommand (acceptGcdn .stein) s

end Sys2Proof.Machine
end

