-- ==== Sys2Proof/Machine/Dispatch.lean ====
section
/-! DEFINITION. One arm per command: what its word does when it is written to CMD (spec/30_encoding.md R85). -/

namespace Sys2Proof.Machine

def exec (i : Instr) (s : State) : Host.Outcome State Fault Refusal :=
  match i with
  | .nop => Sys2Proof.Machine.execNop s
  | .enc => Sys2Proof.Machine.execEnc s
  | .gcd2E => Sys2Proof.Machine.execGcd2E s
  | .gcd2S => Sys2Proof.Machine.execGcd2S s
  | .gcd3E => Sys2Proof.Machine.execGcd3E s
  | .gcd3S => Sys2Proof.Machine.execGcd3S s
  | .gcdnE => Sys2Proof.Machine.execGcdnE s
  | .gcdnS => Sys2Proof.Machine.execGcdnS s

end Sys2Proof.Machine
end

