-- ==== Sys2Proof/WellFormed.lean ====
section
/-! DEFINITION. Which terms of the syntax the spec admits. A command word has no operand field (spec/30_encoding.md R82), so
every command is well formed; a host line has the three checks of spec/20_memory.md R52. -/

namespace Sys2Proof

/-- Every command is well formed: it carries no immediate and no register number (R82). -/
def Instr.wf (_ : Instr) : Bool := true

/-- The offset lies in the 4 KiB window (R20, R52). -/
def offsetInWindow (off : Nat) : Bool := decide (off < Config.windowBytes)

/-- The offset is a multiple of 4 (R52, R60). -/
def offsetAligned (off : Nat) : Bool := decide (off % 4 = 0)

/-- A transaction at this offset is one the block takes: R52's two conditions together. -/
def offsetOk (off : Nat) : Bool := offsetInWindow off && offsetAligned off

/-- A line that is no host protocol violation (R52, R53, R221). -/
def HostLine.wf : HostLine → Bool
  | .rd off => offsetOk off
  | .wr off _ => offsetOk off
  | .poll off _ _ => offsetOk off
  | .oddAccess _ _ => false
  | .reset => true

/-- The line is the platform's reset, and no act of the host (R50, R210). -/
def HostLine.isReset : HostLine → Bool
  | .reset => true
  | .rd _ | .wr _ _ | .poll _ _ _ | .oddAccess _ _ => false

/-- The line is a polling loop of the host's (R89). -/
def HostLine.isPoll : HostLine → Bool
  | .poll _ _ _ => true
  | .rd _ | .wr _ _ | .oddAccess _ _ | .reset => false

end Sys2Proof
end

