-- ==== Sys2Proof/Machine/Bus.lean ====
section
/-! DEFINITION. The block's agents (spec/20_memory.md R50): a host line reaching the window (R52 to R56), the write to CMD
(spec/30_encoding.md R85), the completion of a job (R57), and which of them moves next (R58, R63). -/

namespace Sys2Proof.Machine

/-- ISSUE(v) of R85: while BUSY = 1 the word is discarded undecoded; else OVERRUN is cleared, and the word is decoded and
either raises ILLEGAL_CMD or runs as its command. -/
def issue (v : Word) (s : State) : Host.Outcome State Fault Refusal :=
  if s.busy then .next (discardCommand s)
  else
    match decode v with
    | .illegal _ => .next (raiseError .illegalCmd (clearOverrun s))
    | .command i => exec i s

/-- WRITE(off, v) of R55. -/
def writeWindow (off : Nat) (v : Word) (s : State) : Host.Outcome State Fault Refusal :=
  if regAt s.pNMax off = .cmd then issue v s else .next (writeRegister s v (regAt s.pNMax off))

/-- COMPLETE() of R57: the result is written and the job ends. Both halves of ENC_OUT are written at once (R112). -/
def complete (s : State) : State :=
  match s.pend with
  | none => s
  | some (.enc w) => { s with encOutHi := hiHalf (encodeFloat w), encOutLo := loHalf (encodeFloat w), pend := none }
  | some job => { s with gcdRes := BitVec.ofNat 32 (gcdResult job), pend := none }

/-- Why a 32-bit transaction at this offset is refused, if it is (R53): it does not reach the block, or it is misaligned. -/
def offsetRefusal (off : Nat) : Option Refusal :=
  if offsetInWindow off = false then some .outsideWindow
  else if offsetAligned off = false then some .misaligned
  else none

/-- A read at this offset, its value handed to the host (R54, R221). -/
def hostRead (off : Nat) (s : State) : State := { s with returned := readWindow s off :: s.returned }

/-- A polling line whose read at this state ends the loop (R89). -/
def pollDone (off : Nat) (mask value : Word) (s : State) : Bool := decide (readWindow s off &&& mask = value)

/-- One line of the host's or the platform's, taken against a state from whose `host` it has been removed. A polling line
that goes on is put back in front (R89). -/
def hostMove (line : HostLine) (s : State) : Host.Outcome State Fault Refusal :=
  match line with
  | .rd off =>
    match offsetRefusal off with
    | some r => .refused r
    | none => .next (hostRead off s)
  | .wr off v =>
    match offsetRefusal off with
    | some r => .refused r
    | none => writeWindow off v s
  | .poll off mask value =>
    match offsetRefusal off with
    | some r => .refused r
    | none =>
      if pollDone off mask value s then .next (hostRead off s)
      else .next { hostRead off s with host := line :: s.host }
  | .oddAccess _ off => .refused (if offsetInWindow off = false then .outsideWindow else .accessWidth)
  | .reset => .next (resetBlock s)

/-- The completion is the next step: a job is pending, and its drawn latency has run out or nothing else is left to
happen (R57, R58, R219). -/
def completionDue (s : State) : Bool := s.busy && (s.latency == 0 || s.host.isEmpty)

/-- The line that `hostMove` takes has been removed, and one unit of the pending job's latency is gone. -/
def takeLine (rest : List HostLine) (s : State) : State := { s with host := rest, latency := s.latency - 1 }

/-- The one total order of R63: a due completion, else the next line from outside, else nothing happens (R199). -/
def advance (s : State) : Host.Outcome State Fault Refusal :=
  if completionDue s then .next (complete s)
  else
    match s.host with
    | [] => .next s
    | line :: rest => hostMove line (takeLine rest s)

/-- The state in which the next step is the write of `v` to CMD: the write is put in front of what the host does next, and
the latency of a pending job is one line longer, so that its completion does not come first. -/
def withCommand (v : Word) (s : State) : State :=
  { s with host := .wr 0x000 v :: s.host, latency := s.latency + 1 }

end Sys2Proof.Machine
end

