-- ==== Sys2Proof/Machine/Step.lean ====
section
/-! DEFINITION. One step of the block (spec/00_scope.md R6, spec/20_memory.md R50), and the state that the host of this row
uses to run one command word. -/

namespace Sys2Proof.Machine

/-- One step: a completion, a host line or a reset, or nothing when none is left. -/
def step (s : State) : Host.Outcome State Fault Refusal := advance s

/-- `s` with the command word of a table row where the next step takes its command from: as the host's next write to CMD
(notes/assumptions/5.md). -/
def State.withFetchWord (s : State) (nbits w : Nat) : State := withCommand (tableWord nbits w) s

end Sys2Proof.Machine
end

