-- ==== Sys2Proof/Machine/HostNotation.lean ====
section
/-! DEFINITION. The host notation of spec/30_encoding.md: a register's offset (R89) and the pseudo-instructions with their
expansions (R90). -/

namespace Sys2Proof.Machine

/-- The offset a register name stands for in `WR`, `RD` and `POLL` (R20, R89). A reserved place has no name; 0x024, the
first of them, is given. -/
def regOffset : Reg → Nat
  | .cmd => 0x000
  | .status => 0x004
  | .gcdCap => 0x008
  | .gcdCount => 0x00C
  | .encInLo => 0x010
  | .encInHi => 0x014
  | .encOutLo => 0x018
  | .encOutHi => 0x01C
  | .gcdRes => 0x020
  | .gcdBuf i => 0x100 + 4 * i
  | .reserved => 0x024

/-- `ISSUE <mnemonic>` (R90). -/
def issueLine (i : Instr) : HostLine := .wr (regOffset .cmd) (encode i)

/-- `WAIT` (R90): poll STATUS until BUSY = 0. -/
def waitLine : HostLine := .poll (regOffset .status) 0x0000_0001 0x0000_0000

/-- `WR64 ENC_IN, v` (R90). -/
def writeEncIn (v : DWord) : List HostLine :=
  [.wr (regOffset .encInLo) (loHalf v), .wr (regOffset .encInHi) (hiHalf v)]

/-- `RD64 ENC_OUT` (R90). -/
def readEncOut : List HostLine := [.rd (regOffset .encOutLo), .rd (regOffset .encOutHi)]

end Sys2Proof.Machine
end

