-- ==== Sys2Proof/Machine/Platform.lean ====
section
/-! DEFINITION. Where the platform places the register window (spec/00_scope.md R8, spec/20_memory.md R62): host lines written
with platform addresses in place of offsets, and what becomes of them at the block. -/

namespace Sys2Proof

/-- The platform address of a byte offset of the window: `P_BASE + off` (R8, R14). -/
def Platform.addressOf (p : Platform) (off : Nat) : Nat := p.pBase + off

/-- The address lies in the window (R8, R20). -/
def Platform.reaches (p : Platform) (addr : Nat) : Bool :=
  decide (p.pBase ≤ addr ∧ addr < p.pBase + Config.windowBytes)

/-- The byte offset an address stands for. An address below `P_BASE` has none: it stands at the first offset beyond the
window, where an access does not reach the block either (R53; notes/assumptions/11.md). -/
def Platform.offsetOf (p : Platform) (addr : Nat) : Nat :=
  if p.pBase ≤ addr then addr - p.pBase else Config.windowBytes

/-- The line with the place it accesses replaced. -/
def HostLine.mapPlace (f : Nat → Nat) : HostLine → HostLine
  | .rd place => .rd (f place)
  | .wr place v => .wr (f place) v
  | .poll place mask value => .poll (f place) mask value
  | .oddAccess width place => .oddAccess width (f place)
  | .reset => .reset

/-- A line whose place is a platform address, as the block sees it: with the offset in the address's stead. -/
def Platform.toBlock (p : Platform) (line : HostLine) : HostLine := line.mapPlace p.offsetOf

/-- A line whose place is an offset, as it is written on this platform: with the address in the offset's stead. -/
def Platform.ofBlock (p : Platform) (line : HostLine) : HostLine := line.mapPlace p.addressOf

end Sys2Proof

namespace Sys2Proof.Machine

/-- One line that places its access by a platform address, taken against a state (`hostMove` of Bus.lean for the block
placed at `P_BASE`). -/
def platformMove (p : Platform) (line : HostLine) (s : State) : Host.Outcome State Fault Refusal :=
  hostMove (p.toBlock line) s

/-- The state whose host program is the given one, written with platform addresses. -/
def State.withPlatformProgram (p : Platform) (program : List HostLine) (s : State) : State :=
  { s with host := program.map p.toBlock }

end Sys2Proof.Machine
end

