-- ==== Sys2Proof/Safety.lean ====
section
/-! DEFINITION. The terms claims are stated in: the invariant of spec/10_state.md R36, the launch premises and the end of a
run of spec/70_reset_and_hazards.md R222 and R223, the frames, and the greatest common divisor of R143 and R144. -/

namespace Sys2Proof.Machine

/-- A job's operands are what an accept procedure can latch: a GCDN job holds 2 to `P_NMAX` operands (R140, R141). -/
def Job.wf (nMax : Nat) : Job → Prop
  | .gcdn _ ops => 2 ≤ ops.length ∧ ops.length ≤ nMax
  | .enc _ | .gcd2 _ _ _ | .gcd3 _ _ _ _ => True

/-- The job is one of the GCD engine's. -/
def Job.isGcd : Job → Bool
  | .enc _ => false
  | .gcd2 _ _ _ | .gcd3 _ _ _ _ | .gcdn _ _ => true

/-- The operand words of a GCD job, in order (R34's `ops`). -/
def Job.operands : Job → List Word
  | .enc _ => []
  | .gcd2 _ a b => [a, b]
  | .gcd3 _ a b c => [a, b, c]
  | .gcdn _ ops => ops

/-- The invariant: the capacity is legal (R7); BUSY = 1 implies ERRCODE = 0 (R36); a pending job is well formed. -/
def State.Inv (s : State) : Prop :=
  (Config.pNMaxLeast ≤ s.pNMax ∧ s.pNMax ≤ Config.pNMaxMost) ∧
  (s.busy = true → s.errcode = .none) ∧
  (∀ job, s.pend = some job → job.wf s.pNMax)

/-- ENC_OUT holds no NaN but the canonical one (R114, R119), and GCD_RES is at most 2^31 (R31). -/
def State.ResultsInRange (s : State) : Prop :=
  (classify s.encOut = .nan → s.encOut = 0xFFF8_0000_0000_0000) ∧ s.gcdRes.toNat ≤ 2 ^ 31

/-- Two states agree on everything the block holds (the list of R40, the capacity included). -/
def State.SameBlock (s t : State) : Prop :=
  t.errcode = s.errcode ∧ t.overrun = s.overrun ∧ t.gcdCount = s.gcdCount ∧
  t.encInLo = s.encInLo ∧ t.encInHi = s.encInHi ∧ t.encOutLo = s.encOutLo ∧ t.encOutHi = s.encOutHi ∧
  t.gcdRes = s.gcdRes ∧ t.gcdBuf = s.gcdBuf ∧ t.pend = s.pend

/-- Two states agree on every register that holds operands (GCD_COUNT, ENC_IN, GCD_BUF). -/
def State.SameOperands (s t : State) : Prop :=
  t.gcdCount = s.gcdCount ∧ t.encInLo = s.encInLo ∧ t.encInHi = s.encInHi ∧ t.gcdBuf = s.gcdBuf

/-- Two states agree on every result register (ENC_OUT, GCD_RES). -/
def State.SameResults (s t : State) : Prop :=
  t.encOutLo = s.encOutLo ∧ t.encOutHi = s.encOutHi ∧ t.gcdRes = s.gcdRes

/-- Two states agree on what the host does next and on what it has been told. -/
def State.SameHost (s t : State) : Prop := t.host = s.host ∧ t.returned = s.returned

/-- What an accept procedure that starts a job leaves (R85, R35): the job with its snapshot is pending, ERRCODE and OVERRUN
are 0, and every other register, and the host's side, is as before. The drawn latency is left open (R219). -/
def State.StartsJob (s t : State) (job : Job) : Prop :=
  t.pend = some job ∧ t.errcode = .none ∧ t.overrun = false ∧
  s.SameOperands t ∧ s.SameResults t ∧ s.SameHost t

/-! ### Launch premises (R222) -/

/-- The launch premise `ResetState` (R222, R40), for a block of any legal capacity (R7): every register at its reset value
and no job. What the host is going to do, and the latencies to be drawn, are left open; `State.reset` is the case of
capacity 64 with an empty host list. -/
def State.IsResetState (s : State) (nMax : Nat) : Prop :=
  (Config.pNMaxLeast ≤ nMax ∧ nMax ≤ Config.pNMaxMost) ∧
  s.errcode = .none ∧ s.overrun = false ∧ s.gcdCount = 0 ∧ s.encInLo = 0 ∧ s.encInHi = 0 ∧
  s.encOutLo = 0 ∧ s.encOutHi = 0 ∧ s.gcdRes = 0 ∧ s.gcdBuf = List.replicate nMax 0 ∧ s.pend = none

/-- A reachable state with no refused access in its history (R222, R53): some number of steps, all answering a next state,
leads to it from the state right after reset (notes/assumptions/20.md). A run that meets a refused access answers a
refusal and so reaches nothing. -/
def State.Reachable (s : State) : Prop :=
  ∃ (nMax : Nat) (start : State) (k : Nat), start.IsResetState nMax ∧ Host.Core.run Sys2Proof.core k start = .next s

/-- The launch premise `IdleState` (R222): reachable, with no refused access in its history, no job, and the values of
ERRCODE and OVERRUN stated. -/
def State.IsIdleState (s : State) (code : ErrCode) (overrun : Bool) : Prop :=
  s.Reachable ∧ s.pend = none ∧ s.errcode = code ∧ s.overrun = overrun

/-- The premise of a program that starts with a job in flight (R222): reachable, and the job named with its snapshot. -/
def State.IsJobState (s : State) (job : Job) : Prop := s.Reachable ∧ s.pend = some job

/-! ### Runs, hosts and results -/

/-- The run is over (R223): the host has taken its last transaction, so that nothing but resets of the platform may still
come, and no job is pending. No reset is in progress in any state between steps, because a reset is one atomic step (R210). -/
def State.runOver (s : State) : Bool := s.host.all HostLine.isReset && s.pend.isNone

/-- A state whose next lines from outside are all admitted (no act of R221 that the host must not do). -/
def State.hostAdmitted (s : State) : Prop := ∀ line ∈ s.host, line.wf = true

/-- The greatest common divisor of the magnitudes of a list, 0 for a list of zeros (R144). -/
def gcdOfMagnitudes (l : List Int) : Nat := l.foldr (fun a g => Nat.gcd a.natAbs g) 0

/-- `(-1)^s` for a word's sign bit (R102). -/
def signFactor (w : DWord) : ℚ := if signField w = 0 then 1 else -1

end Sys2Proof.Machine
end

