-- ==== Sys2Proof/Certificates/Slice0/Obligations.lean ====
section
/-! DEFINITION. The statements for the provers. Each docstring names the rule of spec/ it formalises. -/

open Sys2Proof Sys2Proof.Machine

/-! ### Decode and encode -/

/-- R83, some rows: words written out in hexadecimal decode to their commands, and two neighbours to none. -/
def Obligations.DecodeOfSampleWords : Prop :=
  decode 0x0000_0000 = .command .nop ∧ decode 0x0000_0001 = .command .enc ∧
  decode 0x0000_0102 = .command .gcd2S ∧ decode 0x0000_0003 = .command .gcd3E ∧
  decode 0x0000_0104 = .command .gcdnS ∧ decode 0x0000_0100 = .illegal .algWithoutPair ∧
  decode 0x0000_0005 = .illegal .unassignedOp ∧ decode 0x8000_0001 = .illegal .reservedBits

/-- R83 over all 2^32 words: a word decodes to a command exactly when it is that command's word, the words are those of
the opcode map, and every other word is ILLEGAL. -/
def Obligations.DecodeAcceptsExactlyTheEncodedWords : Prop :=
  (∀ (w : Word) (i : Instr), decode w = .command i ↔ w = encode i) ∧
  (encode .nop = 0x0000_0000 ∧ encode .enc = 0x0000_0001 ∧ encode .gcd2E = 0x0000_0002 ∧ encode .gcd2S = 0x0000_0102 ∧
    encode .gcd3E = 0x0000_0003 ∧ encode .gcd3S = 0x0000_0103 ∧ encode .gcdnE = 0x0000_0004 ∧
    encode .gcdnS = 0x0000_0104) ∧
  (∀ w : Word, (∀ i, w ≠ encode i) → ∃ why, decode w = .illegal why)

/-- R86: which words are illegal, what writing one does, and that every word has a defined effect. -/
def Obligations.IllegalWordsRecordIllegalCmd : Prop :=
  (∀ w : Word, (∃ why, decode w = .illegal why) ↔
    (w.extractLsb' 9 23 ≠ 0 ∨ 5 ≤ (w.extractLsb' 0 8).toNat ∨ w = 0x0000_0100 ∨ w = 0x0000_0101)) ∧
  (∀ (w : Word) (why : IllegalWord) (s : State), decode w = .illegal why →
    (s.pend = none → issue w s = .next { s with errcode := .illegalCmd, overrun := false }) ∧
    (s.pend ≠ none → issue w s = .next { s with overrun := true })) ∧
  (∀ (w : Word) (s : State), ∃ t, issue w s = .next t)

/-! ### A step -/

/-- A write to CMD as the next host line runs the decoded command (R50, R55, R85), on the state from which the line and
one unit of latency are gone; and so does the state the row's host builds for one command word. What is gone with the
line, and where the word is placed, are the model's choice (notes/assumptions/3.md and 5.md). -/
def Obligations.StepRunsTheDecodedCommand : Prop :=
  (∀ (s : State) (v : Word) (rest : List HostLine) (i : Instr),
    s.host = .wr 0x000 v :: rest → completionDue s = false → decode v = .command i →
    step s = exec i (takeLine rest s)) ∧
  (∀ (s : State) (v : Word) (i : Instr), decode v = .command i → step (s.withFetchWord 32 v.toNat) = exec i s)

/-- The total order of R63 as the model has it (notes/assumptions/4.md): a completion when it is due, else the next line
from outside, else nothing. The order is the model's choice; R50, R57 and R58 allow it. -/
def Obligations.StepTakesCompletionThenHostLine : Prop :=
  ∀ s : State,
    (s.pend ≠ none → s.latency = 0 ∨ s.host = [] → step s = .next (complete s)) ∧
    (∀ line rest, s.host = line :: rest → s.pend = none ∨ s.latency ≠ 0 →
      step s = hostMove line { s with host := rest, latency := s.latency - 1 }) ∧
    (s.pend = none → s.host = [] → step s = .next s)

/-- R112: the completion of an ENC job writes both halves of ENCODE of the job's snapshot, ends the job, and writes
nothing else. -/
def Obligations.EncCompletionWritesBothHalves : Prop :=
  ∀ (s : State) (w : DWord), s.pend = some (.enc w) → complete s =
    { s with encOutHi := (encodeFloat w).extractLsb' 32 32, encOutLo := (encodeFloat w).extractLsb' 0 32, pend := none }

/-- R142: the completion of a GCD job writes GCDRESULT of its kind, algorithm and operands, which fits the register,
ends the job, and writes nothing else. -/
def Obligations.GcdCompletionWritesTheResult : Prop :=
  ∀ s : State,
    (∀ alg a b, s.pend = some (.gcd2 alg a b) →
      pairGcd alg a.toInt b.toInt ≤ 2 ^ 31 ∧ complete s =
      { s with gcdRes := BitVec.ofNat 32 (pairGcd alg a.toInt b.toInt), pend := none }) ∧
    (∀ alg a b c, s.pend = some (.gcd3 alg a b c) →
      pairGcd alg (pairGcd alg a.toInt b.toInt) c.toInt ≤ 2 ^ 31 ∧ complete s =
      { s with gcdRes := BitVec.ofNat 32 (pairGcd alg (pairGcd alg a.toInt b.toInt) c.toInt), pend := none }) ∧
    (∀ alg ops, s.pend = some (.gcdn alg ops) →
      reduce (ops.map BitVec.toInt) (pairGcd alg) ≤ 2 ^ 31 ∧ complete s =
      { s with gcdRes := BitVec.ofNat 32 (reduce (ops.map BitVec.toInt) (pairGcd alg)), pend := none })

/-! ### The commands -/

/-- R170: NOP clears the two status fields and touches nothing else; while BUSY = 1 it is discarded; right after reset
it leaves the reset state; it is the word 0, and 0x100 is not NOP but illegal. -/
def Obligations.NopClearsTheStatusFields : Prop :=
  (∀ s : State, s.pend = none → exec .nop s = .next { s with errcode := .none, overrun := false }) ∧
  (∀ s : State, s.pend ≠ none → exec .nop s = .next { s with overrun := true }) ∧
  exec .nop State.reset = .next State.reset ∧
  encode .nop = 0x0000_0000 ∧ decode 0x0000_0100 = .illegal .algWithoutPair ∧
  (∀ s t : State, s.statusWord = 0x0000_0012 → exec .nop s = .next t → t.statusWord = 0x0000_0000)

/-- R103: from a block with no job in progress, ENC answers a next state that holds the ENC job on the snapshot
`ENC_IN_HI ++ ENC_IN_LO`, changes no other register, and whose completion leaves ENCODE of the snapshot in ENC_OUT. -/
def Obligations.EncStartsTheEncodeJob : Prop :=
  ∀ s : State, s.pend = none → ∃ t, exec .enc s = .next t ∧ s.StartsJob t (.enc (s.encInHi ++ s.encInLo)) ∧
    (complete t).encOutHi ++ (complete t).encOutLo = encodeFloat (s.encInHi ++ s.encInLo)

/-- R136 and R137: GCD2.E and GCD2.S start the job on GCD_BUF[0..1], whatever GCD_COUNT holds, change no other register,
and their completion leaves the pair algorithm's value in GCD_RES. -/
def Obligations.Gcd2StartsThePairJob : Prop :=
  ∀ s : State, s.pend = none →
    (∃ t, exec .gcd2E s = .next t ∧ s.StartsJob t (.gcd2 .euclid (s.bufEntry 0) (s.bufEntry 1)) ∧
      (complete t).gcdRes = BitVec.ofNat 32 (euclid (s.bufEntry 0).toInt (s.bufEntry 1).toInt)) ∧
    (∃ t, exec .gcd2S s = .next t ∧ s.StartsJob t (.gcd2 .stein (s.bufEntry 0) (s.bufEntry 1)) ∧
      (complete t).gcdRes = BitVec.ofNat 32 (stein (s.bufEntry 0).toInt (s.bufEntry 1).toInt))

/-- R138 and R139: GCD3.E and GCD3.S start the job on GCD_BUF[0..2], change no other register, and their completion
leaves `g(g(a, b), c)` in GCD_RES. -/
def Obligations.Gcd3StartsTheTripleJob : Prop :=
  ∀ s : State, s.pend = none →
    (∃ t, exec .gcd3E s = .next t ∧ s.StartsJob t (.gcd3 .euclid (s.bufEntry 0) (s.bufEntry 1) (s.bufEntry 2)) ∧
      (complete t).gcdRes =
        BitVec.ofNat 32 (euclid (euclid (s.bufEntry 0).toInt (s.bufEntry 1).toInt) (s.bufEntry 2).toInt)) ∧
    (∃ t, exec .gcd3S s = .next t ∧ s.StartsJob t (.gcd3 .stein (s.bufEntry 0) (s.bufEntry 1) (s.bufEntry 2)) ∧
      (complete t).gcdRes =
        BitVec.ofNat 32 (stein (stein (s.bufEntry 0).toInt (s.bufEntry 1).toInt) (s.bufEntry 2).toInt))

/-- R140 and R141 with 2 <= n <= P_NMAX: GCDN.E and GCDN.S start the job on the first n entries of GCD_BUF, change no
other register, and their completion leaves REDUCE's value in GCD_RES. -/
def Obligations.GcdnStartsTheListJob : Prop :=
  ∀ s : State, s.pend = none → 2 ≤ s.gcdCount.toNat → s.gcdCount.toNat ≤ s.gcdBuf.length →
    (∃ t, exec .gcdnE s = .next t ∧ s.StartsJob t (.gcdn .euclid (s.gcdBuf.take s.gcdCount.toNat)) ∧
      (complete t).gcdRes =
        BitVec.ofNat 32 (reduce ((s.gcdBuf.take s.gcdCount.toNat).map BitVec.toInt) euclid)) ∧
    (∃ t, exec .gcdnS s = .next t ∧ s.StartsJob t (.gcdn .stein (s.gcdBuf.take s.gcdCount.toNat)) ∧
      (complete t).gcdRes =
        BitVec.ofNat 32 (reduce ((s.gcdBuf.take s.gcdCount.toNat).map BitVec.toInt) stein))

/-- R183 and R184, with R185 in its effect: each error code, exactly when it is recorded by a command word written to an
idle block whose capacity is legal; so ENC, NOP, GCD2 and GCD3 record none. -/
def Obligations.ErrorCodesHaveTheirCauses : Prop :=
  ∀ (w : Word) (s t : State), s.pend = none → Config.pNMaxLeast ≤ s.gcdBuf.length → issue w s = .next t →
    (t.errcode = .invalidArity ↔
      ((decode w = .command .gcdnE ∨ decode w = .command .gcdnS) ∧ s.gcdCount.toNat < 2)) ∧
    (t.errcode = .capacity ↔
      ((decode w = .command .gcdnE ∨ decode w = .command .gcdnS) ∧ s.gcdBuf.length < s.gcdCount.toNat)) ∧
    (t.errcode = .illegalCmd ↔ ∃ why, decode w = .illegal why)

/-- R189: an erring write to CMD changes ERRCODE and clears OVERRUN, and nothing else; no job starts. -/
def Obligations.ErrorEntryIsPrecise : Prop :=
  ∀ (w : Word) (s t : State), s.pend = none → issue w s = .next t → t.errcode ≠ .none →
    t = { s with errcode := t.errcode, overrun := false }

/-- GCDN with n < 2 or n > P_NMAX takes the error entry of R182, for both algorithms (R140, R141). -/
def Obligations.GcdnRaisesOnBadCount : Prop :=
  ∀ s : State, s.pend = none →
    (s.gcdCount.toNat < 2 →
      exec .gcdnE s = .next { s with errcode := .invalidArity, overrun := false } ∧
      exec .gcdnS s = .next { s with errcode := .invalidArity, overrun := false }) ∧
    (2 ≤ s.gcdCount.toNat → s.gcdBuf.length < s.gcdCount.toNat →
      exec .gcdnE s = .next { s with errcode := .capacity, overrun := false } ∧
      exec .gcdnS s = .next { s with errcode := .capacity, overrun := false })

/-- R186 and R214: while a job is in progress every command, and every word at all, is discarded: only OVERRUN changes.
-/
def Obligations.CommandWhileBusyIsDiscarded : Prop :=
  ∀ s : State, s.pend ≠ none →
    (∀ i, exec i s = .next { s with overrun := true }) ∧ (∀ w, issue w s = .next { s with overrun := true })

/-- R25 and R190: an accepted word clears OVERRUN, and ERRCODE afterwards does not depend on what it was before. -/
def Obligations.AcceptedWordRewritesTheStatus : Prop :=
  ∀ (w : Word) (s t u : State) (code : ErrCode), s.pend = none → issue w s = .next t →
    issue w { s with errcode := code } = .next u → t.overrun = false ∧ u = t

/-! ### Registers -/

/-- R26: the STATUS register bit by bit, its reserved bits, and that host writes to it are ignored; the numbers in bits 7..4
are those of R24's and R181's tables. -/
def Obligations.StatusReadsItsFields : Prop :=
  ∀ s : State,
    hostMove (.rd 0x004) s = .next { s with returned := s.statusWord :: s.returned } ∧
    (∀ v, hostMove (.wr 0x004 v) s = .next s) ∧
    s.statusWord.getLsbD 0 = s.pend.isSome ∧
    s.statusWord.getLsbD 1 = decide (s.errcode ≠ .none) ∧
    s.statusWord.extractLsb' 2 2 = 0 ∧
    s.statusWord.extractLsb' 4 4 = s.errcode.code ∧
    (s.errcode = .none ↔ s.statusWord.extractLsb' 4 4 = 0) ∧
    (s.errcode = .invalidArity ↔ s.statusWord.extractLsb' 4 4 = 1) ∧
    (s.errcode = .capacity ↔ s.statusWord.extractLsb' 4 4 = 2) ∧
    (s.errcode = .illegalCmd ↔ s.statusWord.extractLsb' 4 4 = 3) ∧
    s.statusWord.getLsbD 8 = s.overrun ∧
    s.statusWord.extractLsb' 9 23 = 0

/-- R27: GCD_CAP reads P_NMAX at all times, host writes to it are ignored, and no step changes the capacity. -/
def Obligations.CapacityIsConstant : Prop :=
  (∀ s : State, hostMove (.rd 0x008) s = .next { s with returned := BitVec.ofNat 32 s.gcdBuf.length :: s.returned }) ∧
  (∀ (s : State) (v : Word), hostMove (.wr 0x008 v) s = .next s) ∧
  (∀ s t : State, step s = .next t → t.gcdBuf.length = s.gcdBuf.length)

/-- R33: a reserved offset reads 0 and ignores writes, with no other effect. -/
def Obligations.ReservedOffsetsReadZero : Prop :=
  ∀ (s : State) (off : Nat) (v : Word), off % 4 = 0 →
    (0x024 ≤ off ∧ off < 0x100) ∨ (0x100 + 4 * s.gcdBuf.length ≤ off ∧ off < 0x1000) →
    hostMove (.rd off) s = .next { s with returned := 0 :: s.returned } ∧ hostMove (.wr off v) s = .next s

/-- R54: what a read of each offset returns, with no effect on the block. -/
def Obligations.ReadReturnsTheRegister : Prop :=
  ∀ s : State, s.gcdBuf.length ≤ Config.pNMaxMost →
    hostMove (.rd 0x000) s = .next { s with returned := 0 :: s.returned } ∧
    hostMove (.rd 0x004) s = .next { s with returned := s.statusWord :: s.returned } ∧
    hostMove (.rd 0x008) s = .next { s with returned := BitVec.ofNat 32 s.gcdBuf.length :: s.returned } ∧
    hostMove (.rd 0x00C) s = .next { s with returned := s.gcdCount :: s.returned } ∧
    hostMove (.rd 0x010) s = .next { s with returned := s.encInLo :: s.returned } ∧
    hostMove (.rd 0x014) s = .next { s with returned := s.encInHi :: s.returned } ∧
    hostMove (.rd 0x018) s = .next { s with returned := s.encOutLo :: s.returned } ∧
    hostMove (.rd 0x01C) s = .next { s with returned := s.encOutHi :: s.returned } ∧
    hostMove (.rd 0x020) s = .next { s with returned := s.gcdRes :: s.returned } ∧
    (∀ (i : Nat) (h : i < s.gcdBuf.length),
      hostMove (.rd (0x100 + 4 * i)) s = .next { s with returned := s.gcdBuf[i] :: s.returned }) ∧
    (∀ off, off % 4 = 0 → off < 0x1000 → 0x020 < off → ¬ (0x100 ≤ off ∧ off < 0x100 + 4 * s.gcdBuf.length) →
      hostMove (.rd off) s = .next { s with returned := 0 :: s.returned })

/-- R55: what a write to each offset does, whether or not a job is in progress. -/
def Obligations.WriteStoresTheRegister : Prop :=
  ∀ (s : State) (v : Word), s.gcdBuf.length ≤ Config.pNMaxMost →
    hostMove (.wr 0x000 v) s = issue v s ∧
    hostMove (.wr 0x00C v) s = .next { s with gcdCount := v } ∧
    hostMove (.wr 0x010 v) s = .next { s with encInLo := v } ∧
    hostMove (.wr 0x014 v) s = .next { s with encInHi := v } ∧
    (∀ i, i < s.gcdBuf.length → hostMove (.wr (0x100 + 4 * i) v) s = .next { s with gcdBuf := s.gcdBuf.set i v }) ∧
    (∀ off, off % 4 = 0 → off < 0x1000 → off ≠ 0x000 → off ≠ 0x00C → off ≠ 0x010 → off ≠ 0x014 →
      ¬ (0x100 ≤ off ∧ off < 0x100 + 4 * s.gcdBuf.length) → hostMove (.wr off v) s = .next s)

/-- R56, the spec's own inference from R54 and R55: a read leaves every offset reading as before; a write to a data
register leaves every other offset reading as before, and that one reading the value written. -/
def Obligations.AccessesHaveNoSideEffect : Prop :=
  (∀ (s t : State) (off : Nat), hostMove (.rd off) s = .next t →
    s.SameBlock t ∧ ∀ o, readWindow t o = readWindow s o) ∧
  (∀ (s t : State) (off : Nat) (v : Word), off ≠ 0x000 → hostMove (.wr off v) s = .next t →
    (∀ o, o ≠ off → readWindow t o = readWindow s o) ∧
    (off = 0x00C ∨ off = 0x010 ∨ off = 0x014 ∨ (0x100 ≤ off ∧ off < 0x100 + 4 * s.gcdBuf.length) →
      readWindow t off = v) ∧
    t.errcode = s.errcode ∧ t.overrun = s.overrun ∧ t.pend = s.pend ∧ s.SameResults t ∧ s.SameHost t)

/-- R59(c), R61 and R90: the pseudo-instructions WR64 ENC_IN and RD64 ENC_OUT, on an idle block. -/
def Obligations.SplitRegistersHoldOneDoubleWord : Prop :=
  (∀ (s : State) (v : DWord) (rest : List HostLine), s.pend = none → s.host = writeEncIn v ++ rest →
    ∃ t, Host.Core.run Sys2Proof.core 2 s = .next t ∧ t.encInHi ++ t.encInLo = v ∧ t.host = rest ∧
      t.errcode = s.errcode ∧ t.overrun = s.overrun ∧
      t.gcdCount = s.gcdCount ∧ t.gcdBuf = s.gcdBuf ∧ s.SameResults t ∧ t.pend = none) ∧
  (∀ (s : State) (rest : List HostLine), s.pend = none → s.host = readEncOut ++ rest →
    ∃ t hi lo, Host.Core.run Sys2Proof.core 2 s = .next t ∧ t.returned = hi :: lo :: s.returned ∧
      hi ++ lo = s.encOutHi ++ s.encOutLo ∧ t.host = rest ∧ s.SameBlock t)

/-- R53 and R221: exactly the host protocol violations and the accesses outside the window are refused, each by its
name, and the commands themselves never are. The names, and which one an access has that is outside and of another
width, are the model's choice (notes/assumptions/10.md). -/
def Obligations.OnlyViolatingAccessesAreRefused : Prop :=
  ∀ s : State,
    (∀ line, line.wf = true ↔ ∃ t, hostMove line s = .next t) ∧
    (∀ width off, hostMove (.oddAccess width off) s = .refused (if off < 0x1000 then .accessWidth else .outsideWindow)) ∧
    (∀ off v, off < 0x1000 → off % 4 ≠ 0 →
      hostMove (.rd off) s = .refused .misaligned ∧ hostMove (.wr off v) s = .refused .misaligned) ∧
    (∀ off v, 0x1000 ≤ off →
      hostMove (.rd off) s = .refused .outsideWindow ∧ hostMove (.wr off v) s = .refused .outsideWindow) ∧
    (∀ i, ∃ t, exec i s = .next t)

/-- R89 and R90: WAIT reads STATUS, stays while BUSY = 1 and ends when BUSY = 0; the block does not change. That each
reading counts one line of the latency is the model's choice (notes/assumptions/3.md). -/
def Obligations.WaitPollsUntilIdle : Prop :=
  ∀ (s : State) (rest : List HostLine), s.host = waitLine :: rest → completionDue s = false →
    ∃ t, step s = .next t ∧ s.SameBlock t ∧ t.returned = s.statusWord :: s.returned ∧
      (s.pend = none → t.host = rest) ∧ (s.pend ≠ none → t.host = waitLine :: rest ∧ t.latency + 1 = s.latency)

/-! ### Reset -/

/-- The reset values of R40's table, read through the window and from the hidden state. The capacity 64 is the model's choice
(notes/assumptions/2.md), after R7's "The value the spec takes when a model fixes one is 64": R40 says P_NMAX. -/
def Obligations.ResetStateReadsZero : Prop :=
  (∀ off, off ≠ 0x008 → readWindow State.reset off = 0) ∧ readWindow State.reset 0x008 = 64 ∧
  State.reset.errcode = .none ∧ State.reset.overrun = false ∧ State.reset.pend = none ∧
  State.reset.gcdBuf = List.replicate 64 0

/-- R210: the reset step sets every piece of state to its value of R40, whatever was in progress, and keeps the
capacity. That it keeps the host's side too is the model's choice (notes/assumptions/6.md). -/
def Obligations.ResetClearsTheBlock : Prop :=
  ∀ s : State, ∃ t, hostMove .reset s = .next t ∧
    t.errcode = .none ∧ t.overrun = false ∧ t.gcdCount = 0 ∧ t.encInLo = 0 ∧ t.encInHi = 0 ∧
    t.encOutLo = 0 ∧ t.encOutHi = 0 ∧ t.gcdRes = 0 ∧ t.gcdBuf = List.replicate s.gcdBuf.length 0 ∧ t.pend = none ∧
    s.SameHost t ∧
    (∀ off, readWindow t off = if off = 0x008 then BitVec.ofNat 32 s.gcdBuf.length else 0)

/-! ### The encoder -/

/-- R101: the classes of an input word, by its fields. -/
def Obligations.ClassifyFollowsTheFields : Prop :=
  ∀ w : DWord,
    (classify w = .pzero ↔ w.extractLsb' 52 11 = 0 ∧ w.extractLsb' 0 52 = 0 ∧ w.getLsbD 63 = false) ∧
    (classify w = .nzero ↔ w.extractLsb' 52 11 = 0 ∧ w.extractLsb' 0 52 = 0 ∧ w.getLsbD 63 = true) ∧
    (classify w = .subnormal ↔ w.extractLsb' 52 11 = 0 ∧ w.extractLsb' 0 52 ≠ 0) ∧
    (classify w = .normal ↔ 1 ≤ (w.extractLsb' 52 11).toNat ∧ (w.extractLsb' 52 11).toNat ≤ 2046) ∧
    (classify w = .pinf ↔ w.extractLsb' 52 11 = 2047 ∧ w.extractLsb' 0 52 = 0 ∧ w.getLsbD 63 = false) ∧
    (classify w = .ninf ↔ w.extractLsb' 52 11 = 2047 ∧ w.extractLsb' 0 52 = 0 ∧ w.getLsbD 63 = true) ∧
    (classify w = .nan ↔ w.extractLsb' 52 11 = 2047 ∧ w.extractLsb' 0 52 ≠ 0)

/-- R102: the scaled integer the encoder computes with is 2^1074 times the exact value of the word, and the magnitudes
lie in the ranges, which the rule marks as its own inference (the scale: notes/assumptions/7.md). -/
def Obligations.ScaledValueIsTheExactValue : Prop :=
  ∀ w : DWord,
    (classify w = .normal →
      (scaledValue w : ℚ) / 2 ^ 1074 =
        signFactor w * (1 + ((fractionField w).toNat : ℚ) / 2 ^ 52) * (2 : ℚ) ^ (((exponentField w).toNat : ℤ) - 1023) ∧
      (2 : ℚ) ^ (-1022 : ℤ) ≤ |(scaledValue w : ℚ) / 2 ^ 1074| ∧ |(scaledValue w : ℚ) / 2 ^ 1074| < 2 ^ 1024) ∧
    (classify w = .subnormal →
      (scaledValue w : ℚ) / 2 ^ 1074 =
        signFactor w * (((fractionField w).toNat : ℚ) / 2 ^ 52) * (2 : ℚ) ^ (-1022 : ℤ) ∧
      (2 : ℚ) ^ (-1074 : ℤ) ≤ |(scaledValue w : ℚ) / 2 ^ 1074| ∧
      |(scaledValue w : ℚ) / 2 ^ 1074| < (2 : ℚ) ^ (-1022 : ℤ))

/-- R104: the five special patterns, whose hexadecimal words the rule marks as its own inference, and the algorithm for
every other word. -/
def Obligations.SpecialPatternsAreFixed : Prop :=
  ∀ w : DWord,
    (classify w = .pzero → encodeFloat w = 0x0000_0000_0000_0000) ∧
    (classify w = .nzero → encodeFloat w = 0x8000_0000_0000_0000) ∧
    (classify w = .nan → encodeFloat w = 0xFFF8_0000_0000_0000) ∧
    (classify w = .pinf → encodeFloat w = 0x7FF0_0000_0000_0000) ∧
    (classify w = .ninf → encodeFloat w = 0xFFF0_0000_0000_0000) ∧
    (classify w = .normal ∨ classify w = .subnormal → encodeFloat w = encodeFinite w)

/-- R114, the spec's own inference from R101, R102, R104 and R105: the seven steps come to the closed form. -/
def Obligations.EncodeHasTheClosedForm : Prop :=
  ∀ w : DWord, encodeFloat w = if classify w = .nan then 0xFFF8_0000_0000_0000 else w

/-- R116 and R108, the spec's own inferences from R102 and R105: for a finite non-zero word the loops end by their own
conditions within the stated passes (more fuel changes nothing), the exponent ends in [-1023, 1023], and it is -1023
exactly when the guard fired. -/
def Obligations.EncoderLoopsEndWithinTheirBounds : Prop :=
  ∀ (w : DWord) (more : Nat), classify w = .normal ∨ classify w = .subnormal →
    let up := normaliseUp 1023 (scaledValue w).natAbs 0
    let down := normaliseDown 1023 up.1 up.2
    normaliseUp (1023 + more) (scaledValue w).natAbs 0 = up ∧
    normaliseDown (1023 + more) up.1 up.2 = down ∧
    extractDigits (52 + more) (selectFraction down.1 down.2.2) = extractDigits 52 (selectFraction down.1 down.2.2) ∧
    -1023 ≤ down.2.1 ∧ down.2.1 ≤ 1023 ∧ (down.2.1 = -1023 ↔ down.2.2 = true)

/-- R117, the spec's own inference from R104 and R105, and V-L1-8: flipping the sign of a word that is no NaN flips the
first character of its BitString and no other; every NaN gives one word. -/
def Obligations.SignFlipChangesOnlyTheFirstCharacter : Prop :=
  (∀ w : DWord, classify w ≠ .nan →
    encodeFloat (w ^^^ 0x8000_0000_0000_0000) = encodeFloat w ^^^ 0x8000_0000_0000_0000 ∧
    (bitString (encodeFloat (w ^^^ 0x8000_0000_0000_0000))).tail = (bitString (encodeFloat w)).tail ∧
    (bitString (encodeFloat (w ^^^ 0x8000_0000_0000_0000))).head? ≠ (bitString (encodeFloat w)).head?) ∧
  (∀ w v : DWord, classify w = .nan → classify v = .nan → encodeFloat w = encodeFloat v)

/-- R111 and R59(b): the BitString has 64 characters, most significant bit first. -/
def Obligations.BitStringIsMostSignificantFirst : Prop :=
  ∀ r : DWord, (bitString r).length = 64 ∧
    ∀ k, k < 64 → (bitString r)[k]? = some (if r.getLsbD (63 - k) then '1' else '0')

/-! ### The GCD engine -/

/-- R143, the spec's own inference from R132 and R133: both pair algorithms give the greatest common divisor of the
magnitudes. -/
def Obligations.PairAlgorithmsComputeTheGcd : Prop :=
  ∀ x y : Int, euclid x y = Nat.gcd x.natAbs y.natAbs ∧ stein x y = Nat.gcd x.natAbs y.natAbs

/-- R144, the spec's own inference from R135 and R143: REDUCE gives the gcd of all magnitudes; so the result depends
neither on the algorithm nor on the order or the signs of the operands. -/
def Obligations.ReduceComputesTheGcdOfTheList : Prop :=
  (∀ (l : List Int) (alg : Alg), 2 ≤ l.length → reduce l (pairGcd alg) = gcdOfMagnitudes l) ∧
  (∀ (l m : List Int) (alg other : Alg), 2 ≤ l.length → (l.map Int.natAbs).Perm (m.map Int.natAbs) →
    reduce l (pairGcd alg) = reduce m (pairGcd other))

/-- R145, the spec's own inference from R135 and R142: GCDN on three entries gives GCD3's result, and on two GCD2's. -/
def Obligations.ListJobAgreesWithFixedArity : Prop :=
  ∀ (alg : Alg) (a b c : Word),
    gcdResult (.gcdn alg [a, b, c]) = gcdResult (.gcd3 alg a b c) ∧
    gcdResult (.gcdn alg [a, b]) = gcdResult (.gcd2 alg a b)

/-- R146, the spec's own inference from R130 and R144, and R31: the range of a GCD job's result, its two extreme cases,
and that GCD_RES holds it exactly. -/
def Obligations.GcdResultFitsTheRegister : Prop :=
  ∀ (job : Job) (nMax : Nat), job.isGcd = true → job.wf nMax →
    gcdResult job ≤ 2 ^ 31 ∧
    (gcdResult job = 0 ↔ ∀ v ∈ job.operands, v = 0) ∧
    (gcdResult job = 2 ^ 31 ↔
      (∀ v ∈ job.operands, v = 0 ∨ v = 0x8000_0000) ∧ ∃ v ∈ job.operands, v = 0x8000_0000) ∧
    (BitVec.ofNat 32 (gcdResult job)).toNat = gcdResult job

/-- R147, which the spec marks as derived from R144: the values the source fixes, for both algorithms. -/
def Obligations.GcdValuesOfTheSource : Prop :=
  ∀ alg : Alg, reduce [0, 0] (pairGcd alg) = 0 ∧
    (∀ a : Int, a ≠ 0 → reduce [a, a] (pairGcd alg) = a.natAbs) ∧
    reduce [18, 3, 9, 6] (pairGcd alg) = 3 ∧ reduce [-10, 35, 90, 55, -105] (pairGcd alg) = 5

/-- R148, the spec's own inference from R132, R133 and R135: EUCLID's loop ends within a + b - 2 passes, STEIN within 64
calls on 32-bit magnitudes, and REDUCE within the rounds of a list of at most 2^k elements, each with the value it has.
-/
def Obligations.GcdLoopsEndWithinTheirBounds : Prop :=
  (∀ a b fuel : Nat, 1 ≤ a → 1 ≤ b → a + b - 2 ≤ fuel → euclidLoop fuel a b = Nat.gcd a b) ∧
  (∀ a b fuel : Nat, a ≤ 2 ^ 31 → b ≤ 2 ^ 31 → 64 ≤ fuel → steinLoop fuel a b = Nat.gcd a b) ∧
  (∀ (g : Int → Int → Nat) (l : List Int) (fuel : Nat), 2 ≤ l.length → l.length ≤ 2 ^ (fuel + 1) →
    reduceLoop g fuel l = reduce l g)

/-! ### The whole machine -/

/-- R36, the spec's own inference, with R7 and R35: every step keeps the invariant (BUSY = 1 implies ERRCODE = 0, a
legal capacity, a well-formed job), from every state that meets it. -/
def Obligations.StepKeepsTheInvariant : Prop :=
  ∀ s t : State, s.Inv → step s = .next t → t.Inv

/-- The reset state meets both invariants. -/
def Obligations.ResetMeetsTheInvariants : Prop :=
  State.reset.Inv ∧ State.reset.ResultsInRange

/-- R222: right after reset the block meets the launch premise IdleState with ERRCODE = 0 and OVERRUN = 0, for every legal
capacity; `State.reset` is the case of capacity 64, the model's choice (notes/assumptions/2.md). Reachable is the model's reading
(notes/assumptions/20.md). -/
def Obligations.ResetIsAnIdleLaunchState : Prop :=
  (∀ (s : State) (nMax : Nat), s.IsResetState nMax → s.IsIdleState .none false ∧
    readWindow s 0x008 = BitVec.ofNat 32 nMax ∧ ∀ off, off ≠ 0x008 → readWindow s off = 0) ∧
  State.reset.IsResetState 64

/-- R36 for every reachable state (R222 with R53), as the spec infers it from R22 to R24 and R85: BUSY is set exactly when a
job is pending, ERR exactly when ERRCODE is not 0, a state with a job has ERRCODE = 0 and ERRCODE is one of 0 to 3; the
results stay in the ranges of R31 and R119. What reachable means is the model's reading (notes/assumptions/20.md). -/
def Obligations.ReachableStatesMeetTheInvariants : Prop :=
  ∀ s : State, s.Reachable → s.Inv ∧ s.ResultsInRange ∧
    (s.statusWord.getLsbD 0 = true ↔ s.pend ≠ none) ∧
    (s.statusWord.getLsbD 1 = true ↔ s.statusWord.extractLsb' 4 4 ≠ 0) ∧
    (s.statusWord.getLsbD 0 = true → s.statusWord.extractLsb' 4 4 = 0) ∧
    (s.statusWord.extractLsb' 4 4).toNat ≤ 3

/-- R223, R222 and R199: once a run is over nothing happens any more, however many steps are taken, but for resets that the
platform is still to assert, after each of which it is over too; a job command then written to CMD is accepted, whatever
ERRCODE and OVERRUN the run left (R190, R191), its job completes and the run is over again; and every reachable state under
an admitted host without a polling loop comes to such an end, which is an idle launch state, whatever resets are to follow.
That the step answers the same state, and the bound, are the model's choice (notes/assumptions/3.md and 4.md); reachable is
its reading (notes/assumptions/20.md). -/
def Obligations.EndedRunIsALaunchState : Prop :=
  (∀ s : State, s.runOver = true →
    (s.host = [] → ∀ k, Host.Core.run Sys2Proof.core k s = .next s) ∧
    (s.host ≠ [] → ∃ rest, s.host = .reset :: rest ∧ step s = .next (resetBlock (takeLine rest s)) ∧
      (resetBlock (takeLine rest s)).runOver = true)) ∧
  (∀ (s : State) (i : Instr), s.runOver = true → i ≠ .nop →
    (i = .gcdnE ∨ i = .gcdnS → 2 ≤ s.gcdCount.toNat ∧ s.gcdCount.toNat ≤ s.gcdBuf.length) →
    ∃ u v, step { s with host := [.wr 0x000 (encode i)] } = .next u ∧
      u.pend ≠ none ∧ u.errcode = .none ∧ u.overrun = false ∧ s.SameOperands u ∧ s.SameResults u ∧
      step u = .next v ∧ (complete u).SameResults v ∧ s.SameOperands v ∧
      v.errcode = .none ∧ v.overrun = false ∧ v.runOver = true ∧ v.host = []) ∧
  (∀ (s : State) (program : List HostLine) (n : Nat), s.Reachable → s.host = program ++ List.replicate n .reset →
    s.hostAdmitted → (∀ line ∈ s.host, line.isPoll = false) →
    ∃ k t, k ≤ 2 * program.length + 1 ∧ Host.Core.run Sys2Proof.core k s = .next t ∧ t.runOver = true ∧
      t.host.length ≤ n ∧ t.IsIdleState t.errcode t.overrun)

/-- R31 with R114 and R131, two of the spec's own inferences: every step keeps GCD_RES at most 2^31 and ENC_OUT free of
every NaN but the canonical one, whatever job is pending. -/
def Obligations.StepKeepsTheResultsInRange : Prop :=
  ∀ s t : State, s.ResultsInRange → step s = .next t → t.ResultsInRange

/-- R24, R25 and R190: ERRCODE and OVERRUN change only at a write to CMD or at reset, and ERRCODE only when no job was
in progress. -/
def Obligations.OnlyCommandsAndResetChangeTheStatus : Prop :=
  ∀ s t : State, step s = .next t →
    (t.errcode ≠ s.errcode →
      (∃ rest, s.host = .reset :: rest) ∨ (s.pend = none ∧ ∃ v rest, s.host = .wr 0x000 v :: rest)) ∧
    (t.overrun ≠ s.overrun → ∃ rest, s.host = .reset :: rest ∨ ∃ v, s.host = .wr 0x000 v :: rest)

/-- R22 and R172: a job starts only at the write of a job command's word to an idle block, and ends only at its
completion or at reset; while it is pending it does not change. -/
def Obligations.JobsStartAndEndAsTheRulesSay : Prop :=
  ∀ s t : State, step s = .next t →
    (s.pend = none → t.pend ≠ none →
      t.errcode = .none ∧ ∃ v rest i, s.host = .wr 0x000 v :: rest ∧ decode v = .command i ∧ i ≠ .nop) ∧
    (s.pend ≠ none → t.pend = s.pend ∨
      (t.pend = none ∧ (completionDue s = true ∨ ∃ rest, s.host = .reset :: rest)))

/-- R30, R31 and R149: ENC_OUT changes only at the completion of an ENC job or at reset, GCD_RES only at that of a GCD
job or at reset, and the operand registers only at a host write or at reset. -/
def Obligations.RegistersChangeOnlyAsTheRulesSay : Prop :=
  ∀ s t : State, step s = .next t →
    (t.encOutHi ++ t.encOutLo ≠ s.encOutHi ++ s.encOutLo →
      (∃ rest, s.host = .reset :: rest) ∨ (completionDue s = true ∧ ∃ w, s.pend = some (.enc w))) ∧
    (t.gcdRes ≠ s.gcdRes →
      (∃ rest, s.host = .reset :: rest) ∨ (completionDue s = true ∧ ∃ job, s.pend = some job ∧ job.isGcd = true)) ∧
    (¬ s.SameOperands t →
      ∃ rest, s.host = .reset :: rest ∨ ∃ off v, off ≠ 0x000 ∧ s.host = .wr off v :: rest)

/-- R35, with R66 and R218, two of the spec's own inferences: two states that differ only in the operand registers and
hold the same job complete to the same results; so a host write during a job does not reach it. -/
def Obligations.OperandWritesDoNotReachTheJob : Prop :=
  (∀ s t : State, s.pend ≠ none → t.pend = s.pend → s.SameResults t → (complete s).SameResults (complete t)) ∧
  (∀ (s t : State) (off : Nat) (v : Word), s.pend ≠ none → hostMove (.wr off v) s = .next t →
    t.pend = s.pend ∧ (complete s).SameResults (complete t))

/-- An admitted host is never stopped: from a state whose lines are all admitted (R53, R221), every number of steps
answers a next state, whose lines are admitted too (R86: every word has a defined effect). -/
def Obligations.AdmittedHostIsNeverStopped : Prop :=
  ∀ (s : State) (k : Nat), s.hostAdmitted → ∃ t, Host.Core.run Sys2Proof.core k s = .next t ∧ t.hostAdmitted

/-- R58 and R57: under an admitted host a pending job ends within its drawn latency plus one steps, and unless the
platform asserts reset its result registers are then those of its completion. The bound is the model's drawn latency
(notes/assumptions/3.md); the rule gives none. -/
def Obligations.PendingJobCompletes : Prop :=
  ∀ (s : State), s.pend ≠ none → s.hostAdmitted →
    ∃ k t, 1 ≤ k ∧ k ≤ s.latency + 1 ∧ Host.Core.run Sys2Proof.core k s = .next t ∧ t.pend = none ∧
      (HostLine.reset ∉ s.host → (complete s).SameResults t)

/-- R214: two commands written without waiting have two outcomes, by the drawn latency: the second is accepted after the
first has completed, or it is discarded and the first stays pending. How a latency is drawn is the model's choice
(notes/assumptions/3.md). -/
def Obligations.SecondCommandHasTwoOutcomes : Prop :=
  ∀ (s : State) (d : Nat) (ds : List Nat), s.pend = none → s.latencies = d :: ds →
    s.host = [.wr 0x000 (encode .gcd2E), .wr 0x000 (encode .gcd2S)] →
    (d = 0 → ∃ t, Host.Core.run Sys2Proof.core 3 s = .next t ∧ t.overrun = false ∧
      t.gcdRes = BitVec.ofNat 32 (euclid (s.bufEntry 0).toInt (s.bufEntry 1).toInt) ∧
      t.pend = some (.gcd2 .stein (s.bufEntry 0) (s.bufEntry 1))) ∧
    (d ≠ 0 → ∃ t, Host.Core.run Sys2Proof.core 2 s = .next t ∧ t.overrun = true ∧ t.gcdRes = s.gcdRes ∧
      t.pend = some (.gcd2 .euclid (s.bufEntry 0) (s.bufEntry 1)))

/-- R217, the spec's own inference from R61 and R35: an ENC job that completes between the two reads of RD64 ENC_OUT
gives a low half from before it and a high half from after it. That the completion falls there is said by the model's
latency (notes/assumptions/3.md). -/
def Obligations.SplitReadCanTear : Prop :=
  ∀ (s : State) (w : DWord), s.pend = some (.enc w) → s.latency = 1 → s.host = readEncOut →
    ∃ t, Host.Core.run Sys2Proof.core 3 s = .next t ∧
      t.returned = (encodeFloat w).extractLsb' 32 32 :: s.encOutLo :: s.returned

/-- R223 and R58: from a state whose lines are all admitted and hold no polling loop, the run is over (the host has taken
its last transaction and no job is pending) within two steps a line and one more, the lines counted without the resets
that the platform asserts after them: at most those are still to come. The bound rests on the model's choice of order and
of latency (notes/assumptions/3.md and 4.md); the rules give none. -/
def Obligations.RunEndsAfterTheLastHostLine : Prop :=
  ∀ (s : State) (program : List HostLine) (n : Nat), s.host = program ++ List.replicate n .reset →
    s.hostAdmitted → (∀ line ∈ s.host, line.isPoll = false) →
    ∃ k t, k ≤ 2 * program.length + 1 ∧ Host.Core.run Sys2Proof.core k s = .next t ∧ t.runOver = true ∧
      t.host.length ≤ n

/-! ### The platform -/

/-- R8, R53 and R62: on every platform, wherever it places the window, a line at `P_BASE + off` is the line at `off`; an access
at any address outside the window is refused, and none inside it as being outside; and a program written for the platform
runs as the program in offsets does, so no rule depends on `P_BASE`. That an access outside the window is refused under
outsideWindow, the first of the names, is the model's choice (notes/assumptions/10.md and 11.md). -/
def Obligations.PlatformBasePlacesTheWindow : Prop :=
  (∀ (p : Platform) (line : HostLine) (s : State), platformMove p (p.ofBlock line) s = hostMove line s) ∧
  (∀ (p : Platform) (off : Nat) (v : Word) (s : State),
    platformMove p (.rd (p.pBase + off)) s = hostMove (.rd off) s ∧
    platformMove p (.wr (p.pBase + off) v) s = hostMove (.wr off v) s) ∧
  (∀ (p : Platform) (addr : Nat) (s : State), addr < p.pBase ∨ p.pBase + 0x1000 ≤ addr →
    platformMove p (.rd addr) s = .refused .outsideWindow ∧
    (∀ v, platformMove p (.wr addr v) s = .refused .outsideWindow) ∧
    (∀ mask value, platformMove p (.poll addr mask value) s = .refused .outsideWindow) ∧
    (∀ width, platformMove p (.oddAccess width addr) s = .refused .outsideWindow)) ∧
  (∀ (p : Platform) (addr : Nat) (line : HostLine) (s : State), p.pBase ≤ addr → addr < p.pBase + 0x1000 →
    line = .rd addr ∨ (∃ v, line = .wr addr v) ∨ (∃ mask value, line = .poll addr mask value) ∨
      (∃ width, line = .oddAccess width addr) →
    platformMove p line s ≠ .refused .outsideWindow) ∧
  (∀ (p q : Platform) (program : List HostLine) (s : State) (k : Nat),
    Host.Core.run Sys2Proof.core k (s.withPlatformProgram p (program.map p.ofBlock)) =
      Host.Core.run Sys2Proof.core k (s.withPlatformProgram q (program.map q.ofBlock)) ∧
    (s.withPlatformProgram p (program.map p.ofBlock)).host = program)
end

