-- ==== Sys2Proof/Laws/State.lean ====
section
/-! SUPPORT. The small lemmas of State: one per field per update, so that no later proof unfolds a record update. The lemmas
about the drawn latency itself are in Laws/Ops.lean. -/

namespace Sys2Proof.Machine

/-! ### `discardCommand` -/

@[simp] theorem discardCommand_errcode (s : State) : (discardCommand s).errcode = s.errcode := rfl
@[simp] theorem discardCommand_overrun (s : State) : (discardCommand s).overrun = true := rfl
@[simp] theorem discardCommand_gcdCount (s : State) : (discardCommand s).gcdCount = s.gcdCount := rfl
@[simp] theorem discardCommand_encInLo (s : State) : (discardCommand s).encInLo = s.encInLo := rfl
@[simp] theorem discardCommand_encInHi (s : State) : (discardCommand s).encInHi = s.encInHi := rfl
@[simp] theorem discardCommand_encOutLo (s : State) : (discardCommand s).encOutLo = s.encOutLo := rfl
@[simp] theorem discardCommand_encOutHi (s : State) : (discardCommand s).encOutHi = s.encOutHi := rfl
@[simp] theorem discardCommand_gcdRes (s : State) : (discardCommand s).gcdRes = s.gcdRes := rfl
@[simp] theorem discardCommand_gcdBuf (s : State) : (discardCommand s).gcdBuf = s.gcdBuf := rfl
@[simp] theorem discardCommand_pend (s : State) : (discardCommand s).pend = s.pend := rfl
@[simp] theorem discardCommand_host (s : State) : (discardCommand s).host = s.host := rfl
@[simp] theorem discardCommand_returned (s : State) : (discardCommand s).returned = s.returned := rfl
@[simp] theorem discardCommand_latency (s : State) : (discardCommand s).latency = s.latency := rfl
@[simp] theorem discardCommand_latencies (s : State) : (discardCommand s).latencies = s.latencies := rfl
@[simp] theorem discardCommand_draws (s : State) : (discardCommand s).draws = s.draws := rfl

/-! ### `clearOverrun` -/

@[simp] theorem clearOverrun_errcode (s : State) : (clearOverrun s).errcode = s.errcode := rfl
@[simp] theorem clearOverrun_overrun (s : State) : (clearOverrun s).overrun = false := rfl
@[simp] theorem clearOverrun_gcdCount (s : State) : (clearOverrun s).gcdCount = s.gcdCount := rfl
@[simp] theorem clearOverrun_encInLo (s : State) : (clearOverrun s).encInLo = s.encInLo := rfl
@[simp] theorem clearOverrun_encInHi (s : State) : (clearOverrun s).encInHi = s.encInHi := rfl
@[simp] theorem clearOverrun_encOutLo (s : State) : (clearOverrun s).encOutLo = s.encOutLo := rfl
@[simp] theorem clearOverrun_encOutHi (s : State) : (clearOverrun s).encOutHi = s.encOutHi := rfl
@[simp] theorem clearOverrun_gcdRes (s : State) : (clearOverrun s).gcdRes = s.gcdRes := rfl
@[simp] theorem clearOverrun_gcdBuf (s : State) : (clearOverrun s).gcdBuf = s.gcdBuf := rfl
@[simp] theorem clearOverrun_pend (s : State) : (clearOverrun s).pend = s.pend := rfl
@[simp] theorem clearOverrun_host (s : State) : (clearOverrun s).host = s.host := rfl
@[simp] theorem clearOverrun_returned (s : State) : (clearOverrun s).returned = s.returned := rfl
@[simp] theorem clearOverrun_latency (s : State) : (clearOverrun s).latency = s.latency := rfl
@[simp] theorem clearOverrun_latencies (s : State) : (clearOverrun s).latencies = s.latencies := rfl
@[simp] theorem clearOverrun_draws (s : State) : (clearOverrun s).draws = s.draws := rfl

/-! ### `raiseError` -/

@[simp] theorem raiseError_errcode (code : ErrCode) (s : State) : (raiseError code s).errcode = code := rfl
@[simp] theorem raiseError_overrun (code : ErrCode) (s : State) : (raiseError code s).overrun = s.overrun := rfl
@[simp] theorem raiseError_gcdCount (code : ErrCode) (s : State) : (raiseError code s).gcdCount = s.gcdCount := rfl
@[simp] theorem raiseError_encInLo (code : ErrCode) (s : State) : (raiseError code s).encInLo = s.encInLo := rfl
@[simp] theorem raiseError_encInHi (code : ErrCode) (s : State) : (raiseError code s).encInHi = s.encInHi := rfl
@[simp] theorem raiseError_encOutLo (code : ErrCode) (s : State) : (raiseError code s).encOutLo = s.encOutLo := rfl
@[simp] theorem raiseError_encOutHi (code : ErrCode) (s : State) : (raiseError code s).encOutHi = s.encOutHi := rfl
@[simp] theorem raiseError_gcdRes (code : ErrCode) (s : State) : (raiseError code s).gcdRes = s.gcdRes := rfl
@[simp] theorem raiseError_gcdBuf (code : ErrCode) (s : State) : (raiseError code s).gcdBuf = s.gcdBuf := rfl
@[simp] theorem raiseError_pend (code : ErrCode) (s : State) : (raiseError code s).pend = s.pend := rfl
@[simp] theorem raiseError_host (code : ErrCode) (s : State) : (raiseError code s).host = s.host := rfl
@[simp] theorem raiseError_returned (code : ErrCode) (s : State) : (raiseError code s).returned = s.returned := rfl
@[simp] theorem raiseError_latency (code : ErrCode) (s : State) : (raiseError code s).latency = s.latency := rfl
@[simp] theorem raiseError_latencies (code : ErrCode) (s : State) : (raiseError code s).latencies = s.latencies := rfl
@[simp] theorem raiseError_draws (code : ErrCode) (s : State) : (raiseError code s).draws = s.draws := rfl

/-! ### `resetBlock` -/

@[simp] theorem resetBlock_errcode (s : State) : (resetBlock s).errcode = .none := rfl
@[simp] theorem resetBlock_overrun (s : State) : (resetBlock s).overrun = false := rfl
@[simp] theorem resetBlock_gcdCount (s : State) : (resetBlock s).gcdCount = 0 := rfl
@[simp] theorem resetBlock_encInLo (s : State) : (resetBlock s).encInLo = 0 := rfl
@[simp] theorem resetBlock_encInHi (s : State) : (resetBlock s).encInHi = 0 := rfl
@[simp] theorem resetBlock_encOutLo (s : State) : (resetBlock s).encOutLo = 0 := rfl
@[simp] theorem resetBlock_encOutHi (s : State) : (resetBlock s).encOutHi = 0 := rfl
@[simp] theorem resetBlock_gcdRes (s : State) : (resetBlock s).gcdRes = 0 := rfl
@[simp] theorem resetBlock_gcdBuf (s : State) : (resetBlock s).gcdBuf = List.replicate s.pNMax 0 := rfl
@[simp] theorem resetBlock_pend (s : State) : (resetBlock s).pend = none := rfl
@[simp] theorem resetBlock_host (s : State) : (resetBlock s).host = s.host := rfl
@[simp] theorem resetBlock_returned (s : State) : (resetBlock s).returned = s.returned := rfl
@[simp] theorem resetBlock_latency (s : State) : (resetBlock s).latency = s.latency := rfl
@[simp] theorem resetBlock_latencies (s : State) : (resetBlock s).latencies = s.latencies := rfl
@[simp] theorem resetBlock_draws (s : State) : (resetBlock s).draws = s.draws := rfl

/-! ### `hostRead` -/

@[simp] theorem hostRead_errcode (off : Nat) (s : State) : (hostRead off s).errcode = s.errcode := rfl
@[simp] theorem hostRead_overrun (off : Nat) (s : State) : (hostRead off s).overrun = s.overrun := rfl
@[simp] theorem hostRead_gcdCount (off : Nat) (s : State) : (hostRead off s).gcdCount = s.gcdCount := rfl
@[simp] theorem hostRead_encInLo (off : Nat) (s : State) : (hostRead off s).encInLo = s.encInLo := rfl
@[simp] theorem hostRead_encInHi (off : Nat) (s : State) : (hostRead off s).encInHi = s.encInHi := rfl
@[simp] theorem hostRead_encOutLo (off : Nat) (s : State) : (hostRead off s).encOutLo = s.encOutLo := rfl
@[simp] theorem hostRead_encOutHi (off : Nat) (s : State) : (hostRead off s).encOutHi = s.encOutHi := rfl
@[simp] theorem hostRead_gcdRes (off : Nat) (s : State) : (hostRead off s).gcdRes = s.gcdRes := rfl
@[simp] theorem hostRead_gcdBuf (off : Nat) (s : State) : (hostRead off s).gcdBuf = s.gcdBuf := rfl
@[simp] theorem hostRead_pend (off : Nat) (s : State) : (hostRead off s).pend = s.pend := rfl
@[simp] theorem hostRead_host (off : Nat) (s : State) : (hostRead off s).host = s.host := rfl
@[simp] theorem hostRead_returned (off : Nat) (s : State) : (hostRead off s).returned = readWindow s off :: s.returned := rfl
@[simp] theorem hostRead_latency (off : Nat) (s : State) : (hostRead off s).latency = s.latency := rfl
@[simp] theorem hostRead_latencies (off : Nat) (s : State) : (hostRead off s).latencies = s.latencies := rfl
@[simp] theorem hostRead_draws (off : Nat) (s : State) : (hostRead off s).draws = s.draws := rfl

/-! ### `takeLine` -/

@[simp] theorem takeLine_errcode (rest : List HostLine) (s : State) : (takeLine rest s).errcode = s.errcode := rfl
@[simp] theorem takeLine_overrun (rest : List HostLine) (s : State) : (takeLine rest s).overrun = s.overrun := rfl
@[simp] theorem takeLine_gcdCount (rest : List HostLine) (s : State) : (takeLine rest s).gcdCount = s.gcdCount := rfl
@[simp] theorem takeLine_encInLo (rest : List HostLine) (s : State) : (takeLine rest s).encInLo = s.encInLo := rfl
@[simp] theorem takeLine_encInHi (rest : List HostLine) (s : State) : (takeLine rest s).encInHi = s.encInHi := rfl
@[simp] theorem takeLine_encOutLo (rest : List HostLine) (s : State) : (takeLine rest s).encOutLo = s.encOutLo := rfl
@[simp] theorem takeLine_encOutHi (rest : List HostLine) (s : State) : (takeLine rest s).encOutHi = s.encOutHi := rfl
@[simp] theorem takeLine_gcdRes (rest : List HostLine) (s : State) : (takeLine rest s).gcdRes = s.gcdRes := rfl
@[simp] theorem takeLine_gcdBuf (rest : List HostLine) (s : State) : (takeLine rest s).gcdBuf = s.gcdBuf := rfl
@[simp] theorem takeLine_pend (rest : List HostLine) (s : State) : (takeLine rest s).pend = s.pend := rfl
@[simp] theorem takeLine_host (rest : List HostLine) (s : State) : (takeLine rest s).host = rest := rfl
@[simp] theorem takeLine_returned (rest : List HostLine) (s : State) : (takeLine rest s).returned = s.returned := rfl
@[simp] theorem takeLine_latency (rest : List HostLine) (s : State) : (takeLine rest s).latency = s.latency - 1 := rfl
@[simp] theorem takeLine_latencies (rest : List HostLine) (s : State) : (takeLine rest s).latencies = s.latencies := rfl
@[simp] theorem takeLine_draws (rest : List HostLine) (s : State) : (takeLine rest s).draws = s.draws := rfl

/-! ### `withCommand` -/

@[simp] theorem withCommand_errcode (v : Word) (s : State) : (withCommand v s).errcode = s.errcode := rfl
@[simp] theorem withCommand_overrun (v : Word) (s : State) : (withCommand v s).overrun = s.overrun := rfl
@[simp] theorem withCommand_gcdCount (v : Word) (s : State) : (withCommand v s).gcdCount = s.gcdCount := rfl
@[simp] theorem withCommand_encInLo (v : Word) (s : State) : (withCommand v s).encInLo = s.encInLo := rfl
@[simp] theorem withCommand_encInHi (v : Word) (s : State) : (withCommand v s).encInHi = s.encInHi := rfl
@[simp] theorem withCommand_encOutLo (v : Word) (s : State) : (withCommand v s).encOutLo = s.encOutLo := rfl
@[simp] theorem withCommand_encOutHi (v : Word) (s : State) : (withCommand v s).encOutHi = s.encOutHi := rfl
@[simp] theorem withCommand_gcdRes (v : Word) (s : State) : (withCommand v s).gcdRes = s.gcdRes := rfl
@[simp] theorem withCommand_gcdBuf (v : Word) (s : State) : (withCommand v s).gcdBuf = s.gcdBuf := rfl
@[simp] theorem withCommand_pend (v : Word) (s : State) : (withCommand v s).pend = s.pend := rfl
@[simp] theorem withCommand_host (v : Word) (s : State) : (withCommand v s).host = .wr 0x000 v :: s.host := rfl
@[simp] theorem withCommand_returned (v : Word) (s : State) : (withCommand v s).returned = s.returned := rfl
@[simp] theorem withCommand_latency (v : Word) (s : State) : (withCommand v s).latency = s.latency + 1 := rfl
@[simp] theorem withCommand_latencies (v : Word) (s : State) : (withCommand v s).latencies = s.latencies := rfl
@[simp] theorem withCommand_draws (v : Word) (s : State) : (withCommand v s).draws = s.draws := rfl

/-! ### `drawLatency` -/

@[simp] theorem drawLatency_errcode (s : State) : (drawLatency s).errcode = s.errcode := by
  unfold drawLatency; split <;> rfl
@[simp] theorem drawLatency_overrun (s : State) : (drawLatency s).overrun = s.overrun := by
  unfold drawLatency; split <;> rfl
@[simp] theorem drawLatency_gcdCount (s : State) : (drawLatency s).gcdCount = s.gcdCount := by
  unfold drawLatency; split <;> rfl
@[simp] theorem drawLatency_encInLo (s : State) : (drawLatency s).encInLo = s.encInLo := by
  unfold drawLatency; split <;> rfl
@[simp] theorem drawLatency_encInHi (s : State) : (drawLatency s).encInHi = s.encInHi := by
  unfold drawLatency; split <;> rfl
@[simp] theorem drawLatency_encOutLo (s : State) : (drawLatency s).encOutLo = s.encOutLo := by
  unfold drawLatency; split <;> rfl
@[simp] theorem drawLatency_encOutHi (s : State) : (drawLatency s).encOutHi = s.encOutHi := by
  unfold drawLatency; split <;> rfl
@[simp] theorem drawLatency_gcdRes (s : State) : (drawLatency s).gcdRes = s.gcdRes := by
  unfold drawLatency; split <;> rfl
@[simp] theorem drawLatency_gcdBuf (s : State) : (drawLatency s).gcdBuf = s.gcdBuf := by
  unfold drawLatency; split <;> rfl
@[simp] theorem drawLatency_pend (s : State) : (drawLatency s).pend = s.pend := by
  unfold drawLatency; split <;> rfl
@[simp] theorem drawLatency_host (s : State) : (drawLatency s).host = s.host := by
  unfold drawLatency; split <;> rfl
@[simp] theorem drawLatency_returned (s : State) : (drawLatency s).returned = s.returned := by
  unfold drawLatency; split <;> rfl

/-! ### `startJob` -/

@[simp] theorem startJob_overrun (job : Job) (s : State) : (startJob job s).overrun = s.overrun := by
  simp [startJob]
@[simp] theorem startJob_gcdCount (job : Job) (s : State) : (startJob job s).gcdCount = s.gcdCount := by
  simp [startJob]
@[simp] theorem startJob_encInLo (job : Job) (s : State) : (startJob job s).encInLo = s.encInLo := by
  simp [startJob]
@[simp] theorem startJob_encInHi (job : Job) (s : State) : (startJob job s).encInHi = s.encInHi := by
  simp [startJob]
@[simp] theorem startJob_encOutLo (job : Job) (s : State) : (startJob job s).encOutLo = s.encOutLo := by
  simp [startJob]
@[simp] theorem startJob_encOutHi (job : Job) (s : State) : (startJob job s).encOutHi = s.encOutHi := by
  simp [startJob]
@[simp] theorem startJob_gcdRes (job : Job) (s : State) : (startJob job s).gcdRes = s.gcdRes := by
  simp [startJob]
@[simp] theorem startJob_gcdBuf (job : Job) (s : State) : (startJob job s).gcdBuf = s.gcdBuf := by
  simp [startJob]
@[simp] theorem startJob_host (job : Job) (s : State) : (startJob job s).host = s.host := by
  simp [startJob]
@[simp] theorem startJob_returned (job : Job) (s : State) : (startJob job s).returned = s.returned := by
  simp [startJob]

@[simp] theorem startJob_errcode (job : Job) (s : State) : (startJob job s).errcode = .none := rfl
@[simp] theorem startJob_pend (job : Job) (s : State) : (startJob job s).pend = some job := rfl

/-! ### What is read from other fields -/

@[simp] theorem pNMax_eq (s : State) : s.pNMax = s.gcdBuf.length := rfl
@[simp] theorem count_eq (s : State) : s.count = s.gcdCount.toNat := rfl
@[simp] theorem busy_eq (s : State) : s.busy = s.pend.isSome := rfl
@[simp] theorem encIn_eq (s : State) : s.encIn = s.encInHi ++ s.encInLo := rfl
@[simp] theorem encOut_eq (s : State) : s.encOut = s.encOutHi ++ s.encOutLo := rfl

/-- STATUS is read from four fields only. -/
theorem statusWord_congr (s t : State) (he : t.errcode = s.errcode) (ho : t.overrun = s.overrun) (hp : t.pend = s.pend) :
    t.statusWord = s.statusWord := by
  simp [State.statusWord, State.err, he, ho, hp]

/-- A GCD_BUF entry is read from the buffer only. -/
theorem bufEntry_congr (s t : State) (h : t.gcdBuf = s.gcdBuf) (i : Nat) : t.bufEntry i = s.bufEntry i := by
  simp [State.bufEntry, h]

/-- The window reads the block's registers and nothing else. -/
theorem readWindow_congr (s t : State) (h : s.gcdCount = t.gcdCount ∧ s.encInLo = t.encInLo ∧ s.encInHi = t.encInHi ∧
    s.encOutLo = t.encOutLo ∧ s.encOutHi = t.encOutHi ∧ s.gcdRes = t.gcdRes ∧ s.gcdBuf = t.gcdBuf ∧
    s.errcode = t.errcode ∧ s.overrun = t.overrun ∧ s.pend = t.pend) (off : Nat) :
    readWindow t off = readWindow s off := by
  obtain ⟨h1, h2, h3, h4, h5, h6, h7, h8, h9, h10⟩ := h
  unfold readWindow
  rw [pNMax_eq, pNMax_eq, h7]
  cases regAt t.gcdBuf.length off <;> simp [readRegister, State.bufEntry, *]
  exact statusWord_congr _ _ h8.symm h9.symm h10.symm

end Sys2Proof.Machine
end

