-- ==== Sys2Proof/Laws/Ops.lean ====
section
/-! SUPPORT. One lemma for each shared operation of Machine/Ops.lean and for `exec`: everything it can do. -/

namespace Sys2Proof.Machine

/-! ### The address map -/

/-- The row of the address map (R20) for a register: the offset it answers at, in a block with capacity `nMax`. -/
def mapRow (nMax off : Nat) : Reg → Prop
  | .cmd => off = 0x000
  | .status => off = 0x004
  | .gcdCap => off = 0x008
  | .gcdCount => off = 0x00C
  | .encInLo => off = 0x010
  | .encInHi => off = 0x014
  | .encOutLo => off = 0x018
  | .encOutHi => off = 0x01C
  | .gcdRes => off = 0x020
  | .gcdBuf i => i < nMax ∧ off = 0x100 + 4 * i
  | .reserved => ¬ (off ≤ 0x020 ∧ off % 4 = 0) ∧ ∀ i, i < nMax → off ≠ 0x100 + 4 * i

/-- The offset's register is the one whose row of the map it lies in (R20). -/
theorem regAt_mapRow (nMax off : Nat) : mapRow nMax off (regAt nMax off) := by
  unfold regAt
  split_ifs <;> simp only [mapRow] <;> first | assumption | omega | skip
  exact ⟨by omega, fun i hi h => by omega⟩

/-- No offset lies in two rows of the map. -/
theorem mapRow_unique {nMax off : Nat} {q r : Reg} (hq : mapRow nMax off q) (hr : mapRow nMax off r) : q = r := by
  cases q <;> cases r <;> simp only [mapRow] at hq hr <;> first | rfl | omega | skip
  all_goals first
    | exact congrArg Reg.gcdBuf (by omega)
    | exact absurd hq.2 (hr.2 _ hq.1)
    | exact absurd hr.2 (hq.2 _ hr.1)

/-- All that the address map says (R20): an offset's register is `r` exactly when the offset lies in the row of `r`. -/
theorem regAt_eq_iff (nMax off : Nat) (r : Reg) : regAt nMax off = r ↔ mapRow nMax off r :=
  ⟨fun h => h ▸ regAt_mapRow nMax off, fun h => mapRow_unique (regAt_mapRow nMax off) h⟩

/-- A buffer entry answers at its own offset (R20, R32). -/
theorem regAt_gcdBuf (nMax i : Nat) (h : i < nMax) : regAt nMax (0x100 + 4 * i) = .gcdBuf i :=
  (regAt_eq_iff _ _ _).mpr ⟨h, rfl⟩

/-- The places the map leaves out are reserved (R33). -/
theorem regAt_reserved (nMax off : Nat) (h0 : 0x020 < off) (hb : ¬ (0x100 ≤ off ∧ off < 0x100 + 4 * nMax)) :
    regAt nMax off = .reserved :=
  (regAt_eq_iff _ _ _).mpr ⟨by omega, fun i hi h => by omega⟩

/-! ### Writing a register -/

/-- All that a write to a register other than CMD can do (R55). -/
theorem writeRegister_spec (s : State) (v : Word) (r : Reg) :
    (r = .gcdCount ∧ writeRegister s v r = { s with gcdCount := v }) ∨
    (r = .encInLo ∧ writeRegister s v r = { s with encInLo := v }) ∨
    (r = .encInHi ∧ writeRegister s v r = { s with encInHi := v }) ∨
    (∃ i, r = .gcdBuf i ∧ writeRegister s v r = { s with gcdBuf := s.gcdBuf.set i v }) ∨
    writeRegister s v r = s := by
  cases r <;> simp [writeRegister]

/-- A write to a register other than CMD changes operand registers alone, and no capacity (R55, R56). -/
theorem writeRegister_frame (s : State) (v : Word) (r : Reg) :
    (writeRegister s v r).errcode = s.errcode ∧ (writeRegister s v r).overrun = s.overrun ∧
    (writeRegister s v r).pend = s.pend ∧ s.SameResults (writeRegister s v r) ∧ s.SameHost (writeRegister s v r) ∧
    (writeRegister s v r).latency = s.latency ∧ (writeRegister s v r).gcdBuf.length = s.gcdBuf.length := by
  cases r <;> simp [writeRegister, State.SameResults, State.SameHost]

/-! ### Presenting a command -/

theorem presentCommand_idle {s : State} (accept : State → State) (h : s.pend = none) :
    presentCommand accept s = .next (accept (clearOverrun s)) := by
  simp [presentCommand, h]

theorem presentCommand_busy {s : State} (accept : State → State) (h : s.pend ≠ none) :
    presentCommand accept s = .next (discardCommand s) := by
  have : s.pend.isSome = true := Option.isSome_iff_ne_none.mpr h
  simp [presentCommand, this]

/-- What starting a job does (R85, R35): all but the drawn latency. -/
theorem startJob_spec (s : State) (job : Job) : s.StartsJob (startJob job (clearOverrun s)) job := by
  simp [State.StartsJob, State.SameOperands, State.SameResults, State.SameHost]

/-- The accept procedure of each command, as `exec`'s meanings pass it to `presentCommand`. -/
def acceptOf : Instr → State → State
  | .nop => acceptNop
  | .enc => acceptEnc
  | .gcd2E => acceptGcd2 .euclid
  | .gcd2S => acceptGcd2 .stein
  | .gcd3E => acceptGcd3 .euclid
  | .gcd3S => acceptGcd3 .stein
  | .gcdnE => acceptGcdn .euclid
  | .gcdnS => acceptGcdn .stein

/-- Every command is its accept procedure, presented at CMD. -/
theorem exec_eq (i : Instr) (s : State) : exec i s = presentCommand (acceptOf i) s := by
  cases i <;> rfl

/-- All that an accept procedure can do (R85): clear ERRCODE, record one of GCDN's two errors, or start a well-formed
job. -/
theorem acceptOf_cases (i : Instr) (s : State) :
    (i = .nop ∧ acceptOf i s = { s with errcode := .none }) ∨
    ((i = .gcdnE ∨ i = .gcdnS) ∧ s.gcdCount.toNat < 2 ∧ acceptOf i s = raiseError .invalidArity s) ∨
    ((i = .gcdnE ∨ i = .gcdnS) ∧ 2 ≤ s.gcdCount.toNat ∧ s.gcdBuf.length < s.gcdCount.toNat ∧
      acceptOf i s = raiseError .capacity s) ∨
    (i ≠ .nop ∧ ((i = .gcdnE ∨ i = .gcdnS) → 2 ≤ s.gcdCount.toNat ∧ s.gcdCount.toNat ≤ s.gcdBuf.length) ∧
      ∃ job, job.wf s.gcdBuf.length ∧ acceptOf i s = startJob job s) := by
  have gcdn (alg : Alg) :
      (s.gcdCount.toNat < 2 ∧ acceptGcdn alg s = raiseError .invalidArity s) ∨
      (2 ≤ s.gcdCount.toNat ∧ s.gcdBuf.length < s.gcdCount.toNat ∧ acceptGcdn alg s = raiseError .capacity s) ∨
      ((2 ≤ s.gcdCount.toNat ∧ s.gcdCount.toNat ≤ s.gcdBuf.length) ∧
        ∃ job, job.wf s.gcdBuf.length ∧ acceptGcdn alg s = startJob job s) := by
    unfold acceptGcdn
    split_ifs with h1 h2
    · exact .inl ⟨h1, rfl⟩
    · exact .inr (.inl ⟨Nat.le_of_not_lt h1, h2, rfl⟩)
    · have h : 2 ≤ s.gcdCount.toNat ∧ s.gcdCount.toNat ≤ s.gcdBuf.length := ⟨Nat.le_of_not_lt h1, Nat.le_of_not_lt h2⟩
      exact .inr (.inr ⟨h, _, by simpa [Job.wf, State.bufEntries] using h, rfl⟩)
  cases i with
  | nop => exact .inl ⟨rfl, rfl⟩
  | enc => exact .inr (.inr (.inr ⟨by simp, by simp, _, by trivial, rfl⟩))
  | gcd2E => exact .inr (.inr (.inr ⟨by simp, by simp, _, by trivial, rfl⟩))
  | gcd2S => exact .inr (.inr (.inr ⟨by simp, by simp, _, by trivial, rfl⟩))
  | gcd3E => exact .inr (.inr (.inr ⟨by simp, by simp, _, by trivial, rfl⟩))
  | gcd3S => exact .inr (.inr (.inr ⟨by simp, by simp, _, by trivial, rfl⟩))
  | gcdnE => simpa [acceptOf] using gcdn .euclid
  | gcdnS => simpa [acceptOf] using gcdn .stein

/-- The snapshot of a GCDN job within the capacity is the head of the buffer (R35). -/
theorem bufEntries_eq_take (s : State) (n : Nat) (h : n ≤ s.gcdBuf.length) : s.bufEntries n = s.gcdBuf.take n := by
  apply List.ext_getElem
  · simp [State.bufEntries, h]
  · intro i h1 h2
    have hi : i < s.gcdBuf.length := by simp at h2; omega
    simp [State.bufEntries, State.bufEntry, List.getElem?_eq_getElem hi]

end Sys2Proof.Machine
end

