-- ==== Sys2Proof/Laws/Bus.lean ====
section
/-! SUPPORT. One lemma for each agent of Machine/Bus.lean and for `step`: everything it can do. -/

namespace Sys2Proof.Machine

/-! ### The write to CMD -/

theorem issue_busy {s : State} (v : Word) (h : s.pend ≠ none) : issue v s = .next (discardCommand s) := by
  have : s.pend.isSome = true := Option.isSome_iff_ne_none.mpr h
  simp [issue, this]

theorem issue_illegal {s : State} {v : Word} {why : IllegalWord} (h : s.pend = none) (hd : decode v = .illegal why) :
    issue v s = .next (raiseError .illegalCmd (clearOverrun s)) := by
  simp [issue, h, hd]

theorem issue_command {s : State} {v : Word} {i : Instr} (h : s.pend = none) (hd : decode v = .command i) :
    issue v s = .next (acceptOf i (clearOverrun s)) := by
  simp [issue, h, hd, exec_eq, presentCommand_idle]

/-- All that a word written to CMD can do (R85, R188). -/
theorem issue_cases (v : Word) (s : State) :
    (s.pend ≠ none ∧ issue v s = .next (discardCommand s)) ∨
    (s.pend = none ∧ (∃ why, decode v = .illegal why) ∧
      issue v s = .next (raiseError .illegalCmd (clearOverrun s))) ∨
    (s.pend = none ∧ ∃ i, decode v = .command i ∧ issue v s = .next (acceptOf i (clearOverrun s))) := by
  by_cases h : s.pend = none
  · cases hd : decode v with
    | illegal why => exact .inr (.inl ⟨h, ⟨why, rfl⟩, issue_illegal h hd⟩)
    | command i => exact .inr (.inr ⟨h, i, rfl, issue_command h hd⟩)
  · exact .inl ⟨h, issue_busy v h⟩

/-! ### Host lines -/

theorem offsetRefusal_eq_none (off : Nat) : offsetRefusal off = none ↔ offsetOk off = true := by
  unfold offsetRefusal offsetOk
  cases offsetInWindow off <;> cases offsetAligned off <;> simp

/-- All that an admitted host line can do (R54, R55, R89, R210). -/
theorem hostMove_cases (line : HostLine) (s t : State) (h : hostMove line s = .next t) :
    (∃ off, line = .rd off ∧ t = hostRead off s) ∨
    (∃ v, line = .wr 0x000 v ∧ issue v s = .next t) ∨
    (∃ off v, line = .wr off v ∧ off ≠ 0x000 ∧ off % 4 = 0 ∧ t = writeRegister s v (regAt s.gcdBuf.length off)) ∨
    (∃ off mask value, line = .poll off mask value ∧ (t = hostRead off s ∨ t = { hostRead off s with host := line :: s.host })) ∨
    (line = .reset ∧ t = resetBlock s) := by
  cases line with
  | rd off =>
    simp only [hostMove] at h
    split at h <;> simp_all
  | wr off v =>
    simp only [hostMove] at h
    split at h
    · simp at h
    · rename_i hr
      have h4 : off % 4 = 0 := by
        have := (offsetRefusal_eq_none off).mp hr
        simp [offsetOk, offsetAligned] at this
        exact this.2
      unfold writeWindow at h
      split at h
      · rename_i hc
        have : off = 0 := (regAt_eq_iff _ _ _).mp hc
        subst this
        exact .inr (.inl ⟨v, rfl, h⟩)
      · rename_i hc
        refine .inr (.inr (.inl ⟨off, v, rfl, ?_, h4, by simpa using h.symm⟩))
        rintro rfl
        exact hc (by simp [regAt])
  | poll off mask value =>
    simp only [hostMove] at h
    split at h
    · simp at h
    · split at h <;> simp_all
  | oddAccess w off => simp [hostMove] at h
  | reset => simp_all [hostMove]

/-- A line the spec admits is not refused (R53, R86). -/
theorem hostMove_admitted (line : HostLine) (s : State) (h : line.wf = true) : ∃ t, hostMove line s = .next t := by
  cases line with
  | rd off => simp [hostMove, (offsetRefusal_eq_none off).mpr h]
  | wr off v =>
    simp only [hostMove, (offsetRefusal_eq_none off).mpr h, writeWindow]
    split
    · obtain ⟨-, h⟩ | ⟨-, -, h⟩ | ⟨-, i, -, h⟩ := issue_cases v s <;> exact ⟨_, h⟩
    · exact ⟨_, rfl⟩
  | poll off mask value =>
    simp only [hostMove, (offsetRefusal_eq_none off).mpr h]
    split <;> exact ⟨_, rfl⟩
  | oddAccess w off => simp [HostLine.wf] at h
  | reset => exact ⟨_, rfl⟩

/-! ### The place of the window (R8) -/

/-- An offset's address stands for that offset, wherever the window is placed. -/
@[simp] theorem offsetOf_addressOf (p : Platform) (off : Nat) : p.offsetOf (p.addressOf off) = off := by
  simp [Platform.offsetOf, Platform.addressOf]

theorem reaches_iff (p : Platform) (addr : Nat) :
    p.reaches addr = true ↔ p.pBase ≤ addr ∧ addr < p.pBase + 0x1000 := decide_eq_true_iff

/-- An address stands for an offset in the window exactly when it reaches the window. -/
theorem offsetInWindow_offsetOf (p : Platform) (addr : Nat) : offsetInWindow (p.offsetOf addr) = p.reaches addr := by
  rw [Bool.eq_iff_iff, reaches_iff]
  unfold offsetInWindow Platform.offsetOf Config.windowBytes
  rw [decide_eq_true_iff]
  split_ifs <;> omega

/-- A line of the block's, written on a platform, comes to the block as it was. -/
@[simp] theorem toBlock_ofBlock (p : Platform) (line : HostLine) : p.toBlock (p.ofBlock line) = line := by
  cases line <;> simp [Platform.toBlock, Platform.ofBlock, HostLine.mapPlace]

/-! ### Completion -/

/-- All that the completion step can do (R57). -/
theorem complete_cases (s : State) :
    (s.pend = none ∧ complete s = s) ∨
    (∃ w, s.pend = some (.enc w) ∧ complete s =
      { s with encOutHi := hiHalf (encodeFloat w), encOutLo := loHalf (encodeFloat w), pend := none }) ∨
    (∃ job, s.pend = some job ∧ job.isGcd = true ∧ complete s =
      { s with gcdRes := BitVec.ofNat 32 (gcdResult job), pend := none }) := by
  unfold complete
  rcases h : s.pend with _ | job
  · simp
  · cases job <;> simp [Job.isGcd]

/-- A completion leaves no job, and every register that is no result as it was (R57). -/
theorem complete_frame (s : State) :
    (complete s).pend = none ∧ (complete s).errcode = s.errcode ∧ (complete s).overrun = s.overrun ∧
    s.SameOperands (complete s) ∧ s.SameHost (complete s) ∧ (complete s).latency = s.latency ∧
    (complete s).latencies = s.latencies ∧ (complete s).draws = s.draws := by
  obtain ⟨h, hc⟩ | ⟨w, h, hc⟩ | ⟨job, h, -, hc⟩ := complete_cases s <;>
    rw [hc] <;> simp [State.SameOperands, State.SameHost, h]

/-! ### A step -/

theorem completionDue_iff (s : State) :
    completionDue s = true ↔ s.pend ≠ none ∧ (s.latency = 0 ∨ s.host = []) := by
  simp [completionDue, Option.isSome_iff_ne_none]

/-- All that a step can do (R50, R63). -/
theorem step_cases (s t : State) (h : step s = .next t) :
    (completionDue s = true ∧ t = complete s) ∨
    (completionDue s = false ∧ s.host = [] ∧ t = s) ∨
    (completionDue s = false ∧ ∃ line rest, s.host = line :: rest ∧ hostMove line (takeLine rest s) = .next t) := by
  unfold step advance at h
  split at h
  · simp_all
  · split at h <;> simp_all

theorem step_due {s : State} (h : completionDue s = true) : step s = .next (complete s) := by
  simp [step, advance, h]

theorem step_line {s : State} {line : HostLine} {rest : List HostLine} (hd : completionDue s = false)
    (h : s.host = line :: rest) : step s = hostMove line (takeLine rest s) := by
  simp [step, advance, hd, h]

theorem step_idle {s : State} (hd : completionDue s = false) (h : s.host = []) : step s = .next s := by
  simp [step, advance, hd, h]

/-! ### A run -/

theorem run_succ {s t : State} (k : Nat) (h : step s = .next t) :
    Host.Core.run Sys2Proof.core (k + 1) s = Host.Core.run Sys2Proof.core k t := by
  have h' : Sys2Proof.core.step s = .next t := h
  simp only [Host.Core.run, h']

/-- The first step of a run that answers a next state answers one too. -/
theorem run_succ_next {s u : State} {k : Nat} (h : Host.Core.run Sys2Proof.core (k + 1) s = .next u) :
    ∃ t, step s = .next t ∧ Host.Core.run Sys2Proof.core k t = .next u := by
  cases ht : step s with
  | next t => exact ⟨t, rfl, by rw [← run_succ k ht]; exact h⟩
  | fault r => cases r
  | refused r =>
    have h' : Sys2Proof.core.step s = .refused r := ht
    simp only [Host.Core.run, h'] at h
    cases h

/-- Two runs, one after the other, are one run. -/
theorem run_add {s t : State} {j : Nat} (k : Nat) (h : Host.Core.run Sys2Proof.core j s = .next t) :
    Host.Core.run Sys2Proof.core (j + k) s = Host.Core.run Sys2Proof.core k t := by
  induction j generalizing s with
  | zero => cases h; rw [Nat.zero_add]
  | succ j ih =>
    obtain ⟨u, hu, hr⟩ := run_succ_next h
    rw [Nat.succ_add, run_succ _ hu]
    exact ih hr

theorem isReset_iff (line : HostLine) : line.isReset = true ↔ line = .reset := by cases line <;> simp [HostLine.isReset]

/-- The run is over exactly when nothing but resets may still come and no job is pending (R223). -/
theorem runOver_iff (s : State) : s.runOver = true ↔ (∀ line ∈ s.host, line = .reset) ∧ s.pend = none := by
  simp [State.runOver, isReset_iff]

/-- What every step keeps, every run keeps. -/
theorem run_keeps {P : State → Prop} (keep : ∀ s t, P s → step s = .next t → P t) {s t : State} {k : Nat}
    (hs : P s) (h : Host.Core.run Sys2Proof.core k s = .next t) : P t := by
  induction k generalizing s with
  | zero => cases h; exact hs
  | succ k ih =>
    obtain ⟨u, hu, hr⟩ := run_succ_next h
    exact ih (keep s u hs hu) hr

end Sys2Proof.Machine
end

