-- ==== Sys2Proof/Laws/PerInstr.lean ====
section
/-! SUPPORT. The family of per-command statements: no command's word sets a reserved bit (spec/30_encoding.md R81). -/

namespace Sys2Proof.Laws.ReservedBitsZero

/-- The word of `i` has RSVD = 0. -/
def Statement (i : Instr) : Prop := cmdRsvd (encode i) = 0

theorem nop : Statement .nop := by unfold Statement; decide
theorem enc : Statement .enc := by unfold Statement; decide
theorem gcd2E : Statement .gcd2E := by unfold Statement; decide
theorem gcd2S : Statement .gcd2S := by unfold Statement; decide
theorem gcd3E : Statement .gcd3E := by unfold Statement; decide
theorem gcd3S : Statement .gcd3S := by unfold Statement; decide
theorem gcdnE : Statement .gcdnE := by unfold Statement; decide
theorem gcdnS : Statement .gcdnS := by unfold Statement; decide

end Sys2Proof.Laws.ReservedBitsZero
end

