-- ==== Sys2Proof/Tests/Slice0.lean ====
section
/-! SUPPORT. The model's own tests: each expected value is a vector of spec/95_test_vectors.md or an example of the rule
named; and, for every obligation that has hypotheses, a witness that meets them. -/

namespace Sys2Proof.Machine

/-! ### Helpers -/

/-- The next state, where there is one. -/
def nextOf : Host.Outcome State Fault Refusal → Option State
  | .next t => some t
  | .fault _ => none
  | .refused _ => none

/-- The refusal, where there is one. -/
def refusalOf : Host.Outcome State Fault Refusal → Option Refusal
  | .next _ => none
  | .fault _ => none
  | .refused r => some r

/-- An idle block with a buffer of the given entries. -/
def idleWith (count : Word) (buf : List Word) : State := { State.reset with gcdCount := count, gcdBuf := buf }

/-- A block whose job is due to complete. -/
def dueWith (job : Job) : State := { State.reset with pend := some job }

/-- A block with an ENC job that two host lines may still precede. -/
def busyEnc : State := { State.reset with pend := some (.enc 0x3FF0_0000_0000_0000), latency := 2, host := [.rd 0x004] }

/-- STATUS after the word is written to CMD (through the step). -/
def statusAfter (s : State) (w : Nat) : Option Word := (nextOf (step (s.withFetchWord 32 w))).map State.statusWord

/-! ### Well-formedness: each check refuses an ill-formed term -/

theorem test_wf_refuses_beyond_window : (HostLine.rd 0x1000).wf = false := by decide
theorem test_wf_refuses_misaligned : (HostLine.wr 0x002 0).wf = false := by decide
theorem test_wf_refuses_other_width : (HostLine.oddAccess .w16 0x004).wf = false := by decide
theorem test_wf_admits_last_offset : (HostLine.poll 0xFFC 1 0).wf = true ∧ HostLine.reset.wf = true := by decide
theorem test_wf_instr : Instr.gcdnS.wf = true := by decide

/-! ### Decoding: the words of R83, and V-L2-DEC-2 to 8 -/

theorem test_decode_nop : decode 0b00000000000000000000000000000000 = .command .nop := by decide
theorem test_decode_enc : decode 0b00000000000000000000000000000001 = .command .enc := by decide
theorem test_decode_gcd2E : decode 0b00000000000000000000000000000010 = .command .gcd2E := by decide
theorem test_decode_gcd2S : decode 0b00000000000000000000000100000010 = .command .gcd2S := by decide
theorem test_decode_gcd3E : decode 0b00000000000000000000000000000011 = .command .gcd3E := by decide
theorem test_decode_gcd3S : decode 0b00000000000000000000000100000011 = .command .gcd3S := by decide
theorem test_decode_gcdnE : decode 0b00000000000000000000000000000100 = .command .gcdnE := by decide
theorem test_decode_gcdnS : decode 0b00000000000000000000000100000100 = .command .gcdnS := by decide
theorem test_decode_illegal_alg :
    decode 0x0000_0100 = .illegal .algWithoutPair ∧ decode 0x0000_0101 = .illegal .algWithoutPair := by decide
theorem test_decode_illegal_op :
    decode 0x0000_0005 = .illegal .unassignedOp ∧ decode 0x0000_00FF = .illegal .unassignedOp := by decide
theorem test_decode_illegal_reserved :
    decode 0x0000_0204 = .illegal .reservedBits ∧ decode 0x8000_0001 = .illegal .reservedBits ∧
    decode 0xFFFF_FFFF = .illegal .reservedBits := by decide
theorem test_decodeTableWord : decodeTableWord 32 0x104 = some .gcdnS ∧ decodeTableWord 32 0x105 = none := by decide

/-! ### ENCODE: section 2.1 of the vectors, the rows that the two readings set aside get wrong among them -/

theorem test_encode_255 : encodeFloat 0x406F_E828_F5C2_8F5C = 0x406F_E828_F5C2_8F5C := by decide +kernel
theorem test_encode_minus_2_5 : encodeFloat 0xC004_0000_0000_0000 = 0xC004_0000_0000_0000 := by decide +kernel
theorem test_encode_two : encodeFloat 0x4000_0000_0000_0000 = 0x4000_0000_0000_0000 := by decide +kernel
theorem test_encode_two_pow_1023 : encodeFloat 0x7FE0_0000_0000_0000 = 0x7FE0_0000_0000_0000 := by decide +kernel
theorem test_encode_subnormal_boundary : encodeFloat 0x0008_0000_0000_0000 = 0x0008_0000_0000_0000 := by decide +kernel
theorem test_encode_largest_subnormal : encodeFloat 0x800F_FFFF_FFFF_FFFF = 0x800F_FFFF_FFFF_FFFF := by decide +kernel
theorem test_encode_smallest_subnormal : encodeFloat 0x0000_0000_0000_0001 = 0x0000_0000_0000_0001 := by decide +kernel
theorem test_encode_signalling_nan : encodeFloat 0x7FF0_0000_0000_0001 = 0xFFF8_0000_0000_0000 := by decide +kernel
theorem test_encode_specials :
    encodeFloat 0x8000_0000_0000_0000 = 0x8000_0000_0000_0000 ∧
    encodeFloat 0x7FF0_0000_0000_0000 = 0x7FF0_0000_0000_0000 ∧
    encodeFloat 0xFFF0_0000_0000_0000 = 0xFFF0_0000_0000_0000 := by decide +kernel

/-- V-L2-ENC-29: one halving, m = 5/4. -/
theorem test_normalise_up_trace :
    normaliseUp 1023 (scaledValue 0xC004_0000_0000_0000).natAbs 0 = (5 * 2 ^ 1072, 1) := by decide +kernel

/-- V-L2-ENC-35: the guard fires at e = -1023 with m = 1/2. -/
theorem test_normalise_down_trace :
    normaliseDown 1023 (scaledValue 0x0008_0000_0000_0000).natAbs 0 = (2 ^ 1073, -1023, true) := by decide +kernel

/-- V-L1-6, the first characters of the quoted string. -/
theorem test_bitString : (bitString 0x406F_E828_F5C2_8F5C).take 12 = "010000000110".toList := by decide +kernel

/-! ### The pair algorithms and REDUCE: sections 2.2 and 2.3 -/

theorem test_euclid_values : euclid 18 (-12) = 6 ∧ euclid 0 (-5) = 5 ∧ euclid 35 90 = 5 ∧ euclid 0 0 = 0 := by decide +kernel
theorem test_euclid_min_int : euclid (-2147483648) (-2147483648) = 2147483648 := by decide +kernel
theorem test_stein_values : stein 48 (-180) = 12 ∧ stein 9 0 = 9 ∧ stein 5 (-105) = 5 ∧ stein 0 0 = 0 := by decide +kernel
theorem test_stein_min_int : stein (-2147483648) 2147483647 = 1 ∧ stein (-2147483648) 0 = 2147483648 := by decide +kernel
/-- V-L2-RED-2: the odd element is carried forward unchanged, still negative. -/
theorem test_reduce_round : reduceRound stein [-10, 35, 90, 55, -105] = [5, 5, -105] := by decide +kernel
theorem test_reduce_seven : reduce [12, 18, 27, 0, -6, 9, 15] euclid = 3 := by decide +kernel

/-! ### The commands: sections 2.4 and 2.5 -/

/-- V-L2-DEC-1 and 13. -/
theorem test_nop_clears :
    statusAfter { State.reset with errcode := .invalidArity } 0x0 = some 0x0000_0000 ∧
    statusAfter { State.reset with overrun := true } 0x0 = some 0x0000_0000 := by decide
/-- V-L2-DEC-12. -/
theorem test_nop_discarded_while_busy : statusAfter busyEnc 0x0 = some 0x0000_0101 := by decide
/-- V-L2-ENC-41, V-L2-DEC-9. -/
theorem test_enc_accepted : statusAfter { State.reset with errcode := .illegalCmd } 0x1 = some 0x0000_0001 := by decide
/-- V-L2-ENC-39 and 42: the snapshot completes, whatever ENC_IN holds then. -/
theorem test_enc_completes :
    (nextOf (step { dueWith (.enc 0x3FF0_0000_0000_0000) with encInHi := 0x4000_0000 })).map
      (fun t => (t.encOut, t.statusWord)) = some (0x3FF0_0000_0000_0000, 0) := by decide +kernel
/-- V-L2-CMD-1. -/
theorem test_gcd2E_job :
    (nextOf (exec .gcd2E (idleWith 0 [18, 0xFFFF_FFF4, 7]))).map (fun t => (t.pend, (complete t).gcdRes)) =
      some (some (.gcd2 .euclid 18 0xFFFF_FFF4), 6) := by decide +kernel
/-- V-L2-CMD-2. -/
theorem test_gcd2S_job :
    (nextOf (exec .gcd2S (idleWith 0 [0x8000_0000, 0, 7]))).map (fun t => (complete t).gcdRes) = some 0x8000_0000 := by
  decide +kernel
/-- V-L2-CMD-5. -/
theorem test_gcd3E_job :
    (nextOf (exec .gcd3E (idleWith 0 [12, 18, 27]))).map (fun t => (t.statusWord, (complete t).gcdRes)) = some (1, 3) := by
  decide +kernel
/-- V-L2-CMD-6. -/
theorem test_gcd3S_job :
    (nextOf (exec .gcd3S (idleWith 0 [0x8000_0000, 0x4000_0000, 6]))).map (fun t => (complete t).gcdRes) = some 2 := by
  decide +kernel
/-- V-L2-CMD-17: the entry at index n is not read. -/
theorem test_gcdnE_job :
    (nextOf (exec .gcdnE (idleWith 3 [0, 0, 0, 1]))).map (fun t => (complete t).gcdRes) = some 0 := by decide +kernel
/-- V-L2-CMD-12 and 14. -/
theorem test_gcdnE_errors :
    statusAfter (idleWith 0 [1, 2, 3]) 0x4 = some 0x12 ∧ statusAfter (idleWith 4 [1, 2, 3]) 0x4 = some 0x22 := by decide
/-- V-L1-10. -/
theorem test_gcdnS_job :
    (nextOf (exec .gcdnS (idleWith 5 [0xFFFF_FFF6, 35, 90, 55, 0xFFFF_FF97]))).map (fun t => (complete t).gcdRes) =
      some 5 := by decide +kernel
/-- V-L2-CMD-13 and 15. -/
theorem test_gcdnS_errors :
    statusAfter (idleWith 1 [1, 2, 3]) 0x104 = some 0x12 ∧ statusAfter (idleWith 0xFFFF_FFFF [1, 2, 3]) 0x104 = some 0x22 := by
  decide
/-- V-L2-DEC-11 and 14. -/
theorem test_illegal_words :
    statusAfter busyEnc 0xFFFF_FFFF = some 0x0000_0101 ∧
    statusAfter { State.reset with overrun := true } 0x5 = some 0x0000_0032 := by decide

/-! ### Registers and the host: section 2.6 and 2.7 -/

/-- V-L2-BUS-2, 5 and 11 on the reset state. -/
theorem test_reads_after_reset :
    readWindow State.reset 0x008 = 0x40 ∧ readWindow State.reset 0x200 = 0 ∧ readWindow State.reset 0xFFC = 0 := by decide
/-- V-L2-BUS-7 and 11: GCD_COUNT is not clamped; 0x200 is reserved when P_NMAX = 64, and 0x1FC is the last entry. -/
theorem test_writes :
    (nextOf (hostMove (.wr 0x00C 0xFFFF_FFFF) State.reset)).map (fun t => readWindow t 0x00C) = some 0xFFFF_FFFF ∧
    (nextOf (hostMove (.wr 0x200 5) State.reset)).map (fun t => readWindow t 0x200) = some 0 ∧
    (nextOf (hostMove (.wr 0x1FC 5) State.reset)).map (fun t => readWindow t 0x1FC) = some 5 := by decide
/-- V-L2-BUS-12. -/
theorem test_refused_accesses :
    refusalOf (hostMove (.rd 0x002) State.reset) = some .misaligned ∧
    refusalOf (hostMove (.oddAccess .w16 0x000) State.reset) = some .accessWidth ∧
    refusalOf (hostMove (.wr 0x1000 0) State.reset) = some .outsideWindow := by decide
/-- V-L2-RST-1. -/
theorem test_reset_abandons_the_job :
    (nextOf (step { dueWith (.gcd2 .euclid 12 18) with gcdRes := 6, overrun := true, latency := 1, host := [.reset] })).map
      (fun t => (t.statusWord, t.gcdRes, t.pend)) = some (0, 0, none) := by decide
/-- R59(d): lane 0 of a word carries its bits 7..0. -/
theorem test_byteLane : byteLane 0x406F_E828 0 = 0x28 ∧ byteLane 0x406F_E828 3 = 0x40 := by decide

/-! ### Witnesses: the hypotheses of each obligation are met -/

theorem witness_IllegalWordsRecordIllegalCmd :
    decode 0x0000_0005 = .illegal .unassignedOp ∧ decode 0xFFFF_FFFF = .illegal .reservedBits ∧
    decode 0x0000_0101 = .illegal .algWithoutPair ∧ State.reset.pend = none ∧ busyEnc.pend ≠ none := by decide

theorem witness_StepRunsTheDecodedCommand :
    (withCommand 1 State.reset).host = .wr 0x000 1 :: [] ∧ completionDue (withCommand 1 State.reset) = false ∧
    decode 1 = .command .enc := by decide

theorem witness_StepTakesCompletionThenHostLine :
    ((dueWith (.enc 0)).pend ≠ none ∧ (dueWith (.enc 0)).latency = 0) ∧
    (busyEnc.host = .rd 0x004 :: [] ∧ busyEnc.latency ≠ 0) ∧ (State.reset.pend = none ∧ State.reset.host = []) := by decide

theorem witness_EncCompletionWritesBothHalves : (dueWith (.enc 1)).pend = some (.enc 1) := by decide

theorem witness_GcdCompletionWritesTheResult :
    (dueWith (.gcd2 .euclid 0x8000_0000 0)).pend = some (.gcd2 .euclid 0x8000_0000 0) ∧
    (dueWith (.gcd3 .stein 0 0 5)).pend = some (.gcd3 .stein 0 0 5) ∧
    (dueWith (.gcdn .euclid [1, 2])).pend = some (.gcdn .euclid [1, 2]) := by decide

theorem witness_NopClearsTheStatusFields :
    State.reset.pend = none ∧ busyEnc.pend ≠ none ∧
    ({ State.reset with errcode := .invalidArity } : State).statusWord = 0x0000_0012 ∧
    (nextOf (exec .nop { State.reset with errcode := .invalidArity })).isSome = true := by decide

theorem witness_EncStartsTheEncodeJob : State.reset.pend = none := rfl
theorem witness_Gcd2StartsThePairJob : (idleWith 0 [18, 12, 1]).pend = none := rfl
theorem witness_Gcd3StartsTheTripleJob : (idleWith 0 [12, 18, 27]).pend = none := rfl

/-- The two boundary counts, 2 and P_NMAX. -/
theorem witness_GcdnStartsTheListJob :
    ((idleWith 2 [18, 12, 1]).pend = none ∧ 2 ≤ (idleWith 2 [18, 12, 1]).gcdCount.toNat ∧
      (idleWith 2 [18, 12, 1]).gcdCount.toNat ≤ (idleWith 2 [18, 12, 1]).gcdBuf.length) ∧
    ((idleWith 3 [18, 12, 1]).pend = none ∧ 2 ≤ (idleWith 3 [18, 12, 1]).gcdCount.toNat ∧
      (idleWith 3 [18, 12, 1]).gcdCount.toNat ≤ (idleWith 3 [18, 12, 1]).gcdBuf.length) := by decide

/-- The four boundary counts, 1, 2, P_NMAX and P_NMAX + 1, at the least capacity. -/
theorem witness_ErrorCodesHaveTheirCauses :
    Config.pNMaxLeast ≤ (idleWith 1 [0, 0, 0]).gcdBuf.length ∧ (idleWith 1 [0, 0, 0]).pend = none ∧
    (nextOf (issue 0x4 (idleWith 1 [0, 0, 0]))).map (·.errcode) = some .invalidArity ∧
    (nextOf (issue 0x4 (idleWith 2 [0, 0, 0]))).map (·.errcode) = some .none ∧
    (nextOf (issue 0x4 (idleWith 3 [0, 0, 0]))).map (·.errcode) = some .none ∧
    (nextOf (issue 0x4 (idleWith 4 [0, 0, 0]))).map (·.errcode) = some .capacity ∧
    (nextOf (issue 0x5 (idleWith 4 [0, 0, 0]))).map (·.errcode) = some .illegalCmd := by decide

theorem witness_ErrorEntryIsPrecise :
    (idleWith 0 [1, 2, 3]).pend = none ∧
    (nextOf (issue 0x104 (idleWith 0 [1, 2, 3]))).map (fun t => decide (t.errcode ≠ .none)) = some true := by decide

theorem witness_GcdnRaisesOnBadCount :
    (idleWith 1 [1, 2, 3]).pend = none ∧ (idleWith 1 [1, 2, 3]).gcdCount.toNat < 2 ∧
    2 ≤ (idleWith 4 [1, 2, 3]).gcdCount.toNat ∧
    (idleWith 4 [1, 2, 3]).gcdBuf.length < (idleWith 4 [1, 2, 3]).gcdCount.toNat := by decide

theorem witness_CommandWhileBusyIsDiscarded : busyEnc.pend ≠ none := by decide

theorem witness_AcceptedWordRewritesTheStatus :
    State.reset.pend = none ∧ (nextOf (issue 0x0 State.reset)).isSome = true ∧
    (nextOf (issue 0x0 { State.reset with errcode := .capacity })).isSome = true := by decide

theorem witness_CapacityIsConstant : (nextOf (step State.reset)).isSome = true := by decide

/-- The ends of both reserved ranges, on the reset state (P_NMAX = 64). -/
theorem witness_ReservedOffsetsReadZero :
    (0x024 % 4 = 0 ∧ 0x024 ≤ 0x024 ∧ 0x024 < 0x100) ∧ (0x0FC % 4 = 0 ∧ 0x024 ≤ 0x0FC ∧ 0x0FC < 0x100) ∧
    (0x200 % 4 = 0 ∧ 0x100 + 4 * State.reset.gcdBuf.length ≤ 0x200 ∧ 0x200 < 0x1000) ∧
    (0xFFC % 4 = 0 ∧ 0x100 + 4 * State.reset.gcdBuf.length ≤ 0xFFC ∧ 0xFFC < 0x1000) := by decide

/-- The first and last entries, and the ends of both reserved ranges. -/
theorem witness_ReadReturnsTheRegister :
    State.reset.gcdBuf.length ≤ Config.pNMaxMost ∧ 63 < State.reset.gcdBuf.length ∧ 0 < State.reset.gcdBuf.length ∧
    ∀ off ∈ [0x024, 0x0FC, 0x200, 0xFFC], off % 4 = 0 ∧ off < 0x1000 ∧ 0x020 < off ∧
      ¬ (0x100 ≤ off ∧ off < 0x100 + 4 * State.reset.gcdBuf.length) := by decide

/-- The first and last entries, a read-only register, and the ends of both reserved ranges. -/
theorem witness_WriteStoresTheRegister :
    State.reset.gcdBuf.length ≤ Config.pNMaxMost ∧ 63 < State.reset.gcdBuf.length ∧ 0 < State.reset.gcdBuf.length ∧
    ∀ off ∈ [0x004, 0x020, 0x024, 0x0FC, 0x200, 0xFFC], off % 4 = 0 ∧ off < 0x1000 ∧ off ≠ 0x000 ∧ off ≠ 0x00C ∧
      off ≠ 0x010 ∧ off ≠ 0x014 ∧ ¬ (0x100 ≤ off ∧ off < 0x100 + 4 * State.reset.gcdBuf.length) := by decide

theorem witness_AccessesHaveNoSideEffect :
    (nextOf (hostMove (.rd 0xFFC) State.reset)).isSome = true ∧
    (nextOf (hostMove (.wr 0x100 7) State.reset)).isSome = true ∧
    (nextOf (hostMove (.wr 0x1FC 7) State.reset)).isSome = true ∧ 0x1FC < 0x100 + 4 * State.reset.gcdBuf.length := by decide

theorem witness_SplitRegistersHoldOneDoubleWord :
    ({ State.reset with host := writeEncIn 5 ++ [] } : State).host = writeEncIn 5 ++ [] ∧
    ({ State.reset with host := readEncOut ++ [] } : State).host = readEncOut ++ [] ∧ State.reset.pend = none := by decide

/-- The boundary offsets 0xFFF (inside, misaligned) and 0x1000 (outside). -/
theorem witness_OnlyViolatingAccessesAreRefused :
    0xFFF < 0x1000 ∧ 0xFFF % 4 ≠ 0 ∧ refusalOf (hostMove (.rd 0xFFF) State.reset) = some .misaligned ∧
    refusalOf (hostMove (.rd 0x1000) State.reset) = some .outsideWindow := by decide

/-- R8, R20: GCD_CAP at `P_BASE + 0x008`, for a window at 0x4000_0000; and the two addresses beside the window. -/
theorem test_platform_address :
    (nextOf (platformMove ⟨0x4000_0000⟩ (.rd 0x4000_0008) State.reset)).map (·.returned) = some [64] ∧
    refusalOf (platformMove ⟨0x4000_0000⟩ (.rd 0x3FFF_FFFC) State.reset) = some .outsideWindow ∧
    refusalOf (platformMove ⟨0x4000_0000⟩ (.wr 0x4000_1000 1) State.reset) = some .outsideWindow := by decide

/-- The four addresses at the ends of the window. -/
theorem witness_PlatformBasePlacesTheWindow :
    let p : Platform := ⟨0x4000_0000⟩
    0x3FFF_FFFF < p.pBase ∧ p.pBase + 0x1000 ≤ 0x4000_1000 ∧
    (p.pBase ≤ 0x4000_0000 ∧ 0x4000_0000 < p.pBase + 0x1000) ∧ (p.pBase ≤ 0x4000_0FFF ∧ 0x4000_0FFF < p.pBase + 0x1000) ∧
    HostLine.rd 0x4000_0000 = .rd 0x4000_0000 := by decide

theorem witness_WaitPollsUntilIdle :
    ({ State.reset with host := [waitLine] } : State).host = waitLine :: [] ∧
    completionDue { State.reset with host := [waitLine] } = false ∧
    completionDue { busyEnc with host := [waitLine] } = false ∧ busyEnc.pend ≠ none := by decide

theorem witness_ScaledValueIsTheExactValue :
    classify 0x0010_0000_0000_0000 = .normal ∧ classify 0x7FEF_FFFF_FFFF_FFFF = .normal ∧
    classify 0x0000_0000_0000_0001 = .subnormal ∧ classify 0x800F_FFFF_FFFF_FFFF = .subnormal := by decide

theorem witness_SpecialPatternsAreFixed :
    classify 0 = .pzero ∧ classify 0x8000_0000_0000_0000 = .nzero ∧ classify 0x7FF0_0000_0000_0001 = .nan ∧
    classify 0x7FF0_0000_0000_0000 = .pinf ∧ classify 0xFFF0_0000_0000_0000 = .ninf ∧
    classify 0x3FF0_0000_0000_0000 = .normal ∧ classify 0x000F_FFFF_FFFF_FFFF = .subnormal := by decide

theorem witness_EncoderLoopsEndWithinTheirBounds :
    classify 0x7FEF_FFFF_FFFF_FFFF = .normal ∧ classify 0x0000_0000_0000_0001 = .subnormal := by decide

theorem witness_SignFlipChangesOnlyTheFirstCharacter :
    classify 0x7FF0_0000_0000_0000 ≠ .nan ∧ classify 0x7FF8_0000_0000_0000 = .nan ∧
    classify 0xFFFF_FFFF_FFFF_FFFF = .nan := by decide

theorem witness_ReduceComputesTheGcdOfTheList :
    2 ≤ ([18, -3] : List Int).length ∧
    (([18, -3] : List Int).map Int.natAbs).Perm (([3, 18] : List Int).map Int.natAbs) := by decide

theorem witness_GcdResultFitsTheRegister :
    (Job.gcdn .euclid [0x8000_0000, 0]).isGcd = true ∧ (Job.gcdn .euclid [0x8000_0000, 0]).wf 3 ∧
    (Job.gcd2 .stein 0 0).isGcd = true ∧ (Job.gcd2 .stein 0 0).wf 3 :=
  ⟨rfl, by simp [Job.wf], rfl, by simp [Job.wf]⟩

theorem witness_GcdValuesOfTheSource : (-7 : Int) ≠ 0 := by decide

/-- The boundaries: no pass at all, the greatest magnitudes with 64 calls, and two elements with no round. -/
theorem witness_GcdLoopsEndWithinTheirBounds :
    (1 ≤ 1 ∧ 1 + 1 - 2 ≤ 0) ∧ (2 ^ 31 ≤ 2 ^ 31 ∧ 64 ≤ 64) ∧
    (2 ≤ ([4, 6] : List Int).length ∧ ([4, 6] : List Int).length ≤ 2 ^ (0 + 1)) := by decide

theorem reset_inv : State.reset.Inv := ⟨by decide, by decide, by intro job h; cases h⟩

theorem witness_StepKeepsTheInvariant : State.reset.Inv ∧ step State.reset = .next State.reset := ⟨reset_inv, rfl⟩

theorem reset_isResetState : State.reset.IsResetState 64 :=
  ⟨by decide, rfl, rfl, rfl, rfl, rfl, rfl, rfl, rfl, rfl, rfl⟩

/-- The least and the greatest capacity. -/
theorem witness_ResetIsAnIdleLaunchState :
    ({ State.reset with gcdBuf := List.replicate 3 0 } : State).IsResetState 3 ∧
    ({ State.reset with gcdBuf := List.replicate 960 0 } : State).IsResetState 960 :=
  ⟨⟨by decide, rfl, rfl, rfl, rfl, rfl, rfl, rfl, rfl, rfl, rfl⟩,
    ⟨by decide, rfl, rfl, rfl, rfl, rfl, rfl, rfl, rfl, rfl, rfl⟩⟩

/-- The host of a block right after reset issues ENC, whose drawn latency is 3. -/
def issuesEnc : State := { State.reset with host := [.wr 0x000 1], latencies := [3] }

/-- That block once the command is accepted, with the job in flight. -/
def encInFlight : State := { State.reset with pend := some (.enc 0), latency := 3 }

theorem encInFlight_reachable : encInFlight.Reachable := ⟨64, issuesEnc, 1, reset_isResetState, rfl⟩

theorem witness_ReachableStatesMeetTheInvariants : encInFlight.Reachable ∧ encInFlight.pend ≠ none :=
  ⟨encInFlight_reachable, by decide⟩

/-- A run that is over with nothing and with a reset to come, a job command, GCDN at the counts 2 and P_NMAX, and a job in
flight with no line left. -/
theorem witness_EndedRunIsALaunchState :
    (State.reset.runOver = true ∧ State.reset.host = [] ∧ Instr.enc ≠ .nop) ∧
    (({ State.reset with host := [.reset] } : State).runOver = true ∧
      ({ State.reset with host := [.reset] } : State).host ≠ []) ∧
    ((idleWith 2 [4, 6, 9]).runOver = true ∧ 2 ≤ (idleWith 2 [4, 6, 9]).gcdCount.toNat ∧
      (idleWith 2 [4, 6, 9]).gcdCount.toNat ≤ (idleWith 2 [4, 6, 9]).gcdBuf.length) ∧
    ((idleWith 3 [4, 6, 9]).runOver = true ∧ 2 ≤ (idleWith 3 [4, 6, 9]).gcdCount.toNat ∧
      (idleWith 3 [4, 6, 9]).gcdCount.toNat ≤ (idleWith 3 [4, 6, 9]).gcdBuf.length) ∧
    encInFlight.Reachable ∧ encInFlight.host = [] ++ List.replicate 0 .reset ∧ encInFlight.hostAdmitted ∧
    (∀ line ∈ encInFlight.host, line.isPoll = false) :=
  ⟨by decide, by decide, by decide, by decide, encInFlight_reachable, rfl,
    fun _ h => by simp [encInFlight, State.reset] at h, fun _ h => by simp [encInFlight, State.reset] at h⟩

/-- R223: a reset still to come is not in progress and keeps no run from being over; a transaction or a job does. -/
theorem test_run_over :
    ({ State.reset with gcdRes := 6, host := [.reset] } : State).runOver = true ∧
    ({ State.reset with host := [.rd 0x004, .reset] } : State).runOver = false ∧
    ({ busyEnc with host := [.reset] } : State).runOver = false := by decide

/-- An illegal word leaves an idle launch state with ERRCODE = 3 (R222, R190). -/
theorem test_idle_launch_state_after_an_error :
    ({ State.reset with errcode := .illegalCmd } : State).IsIdleState .illegalCmd false :=
  ⟨⟨64, { State.reset with host := [.wr 0x000 5] }, 1, reset_isResetState, rfl⟩, rfl, rfl, rfl⟩

/-- A launch state with a named job in flight (R222), which completes in one step. -/
theorem test_job_launch_state :
    encInFlight.IsJobState (.enc 0) ∧ step encInFlight = .next (complete encInFlight) :=
  ⟨⟨encInFlight_reachable, rfl⟩, rfl⟩

/-- A refused access reaches no state (R53). -/
theorem test_refused_access_reaches_nothing :
    refusalOf (Host.Core.run Sys2Proof.core 2 { State.reset with host := [.rd 0x002, .rd 0x004] }) = some .misaligned := by
  decide

theorem witness_StepKeepsTheResultsInRange :
    State.reset.ResultsInRange ∧ step State.reset = .next State.reset := ⟨⟨by decide, by decide⟩, rfl⟩

theorem witness_OnlyCommandsAndResetChangeTheStatus :
    (nextOf (step (withCommand 5 State.reset))).map (fun t => decide (t.errcode ≠ State.reset.errcode)) = some true ∧
    (nextOf (step (withCommand 0 busyEnc))).map (fun t => decide (t.overrun ≠ busyEnc.overrun)) = some true := by decide

theorem witness_JobsStartAndEndAsTheRulesSay :
    (nextOf (step (withCommand 1 State.reset))).map (fun t => decide (t.pend ≠ none)) = some true ∧
    (nextOf (step (dueWith (.gcd2 .stein 4 6)))).map (·.pend) = some none := by decide

theorem witness_RegistersChangeOnlyAsTheRulesSay :
    (nextOf (step (dueWith (.enc 1)))).map (fun t => decide (t.encOutLo ≠ 0)) = some true ∧
    (nextOf (step (dueWith (.gcd2 .stein 4 6)))).map (fun t => decide (t.gcdRes ≠ 0)) = some true ∧
    (nextOf (step { State.reset with host := [.wr 0x00C 5] })).map (fun t => decide (t.gcdCount ≠ 0)) = some true := by
  decide +kernel

theorem witness_OperandWritesDoNotReachTheJob :
    busyEnc.pend ≠ none ∧ busyEnc.SameResults { busyEnc with gcdCount := 7 } ∧
    (nextOf (hostMove (.wr 0x010 7) busyEnc)).isSome = true ∧ (nextOf (hostMove (.wr 0x000 7) busyEnc)).isSome = true :=
  ⟨by decide, ⟨rfl, rfl, rfl⟩, by decide, by decide⟩

theorem busyEnc_admitted : busyEnc.hostAdmitted := by
  intro line h
  simp [busyEnc] at h
  subst h
  decide

theorem witness_AdmittedHostIsNeverStopped : busyEnc.hostAdmitted := busyEnc_admitted
theorem witness_PendingJobCompletes : busyEnc.pend ≠ none ∧ busyEnc.hostAdmitted := ⟨by decide, busyEnc_admitted⟩

/-- Both draws, 0 and 1. -/
theorem witness_SecondCommandHasTwoOutcomes (d : Nat) :
    let s : State := { idleWith 0 [12, 18, 27] with
      latencies := [d], host := [.wr 0x000 (encode .gcd2E), .wr 0x000 (encode .gcd2S)] }
    s.pend = none ∧ s.latencies = d :: [] ∧ s.host = [.wr 0x000 (encode .gcd2E), .wr 0x000 (encode .gcd2S)] :=
  ⟨rfl, rfl, rfl⟩

theorem witness_SplitReadCanTear :
    let s : State := { dueWith (.enc 0x3FF0_0000_0000_0000) with latency := 1, host := readEncOut }
    s.pend = some (.enc 0x3FF0_0000_0000_0000) ∧ s.latency = 1 ∧ s.host = readEncOut := ⟨rfl, rfl, rfl⟩

theorem witness_RunEndsAfterTheLastHostLine :
    busyEnc.host = [.rd 0x004] ++ List.replicate 0 .reset ∧ busyEnc.hostAdmitted ∧
    (∀ line ∈ busyEnc.host, line.isPoll = false) :=
  ⟨rfl, busyEnc_admitted, by simp [busyEnc, HostLine.isPoll]⟩

/-- The same hypotheses with a reset to follow, and no line of the host's. -/
theorem witness_RunEndsAfterTheLastHostLine_reset :
    let s : State := { busyEnc with host := [.reset] }
    s.host = [] ++ List.replicate 1 .reset ∧ s.hostAdmitted ∧ ∀ line ∈ s.host, line.isPoll = false :=
  ⟨rfl, by simp [State.hostAdmitted, HostLine.wf], by simp [HostLine.isPoll]⟩

end Sys2Proof.Machine
end

section
/-! PROOFS. What the window reads when every register holds its reset value (spec/10_state.md section 6, R40), for every
capacity, and the settlement of the obligation about `State.reset`. -/

namespace Sys2Proof.Machine

/-- Every piece of the block's state but the capacity holds its reset value (R40). No bound on the capacity is asked, so
that this is what the reset step leaves from any state, too. -/
def State.RegistersAtReset (s : State) : Prop :=
  s.errcode = .none ∧ s.overrun = false ∧ s.gcdCount = 0 ∧ s.encInLo = 0 ∧ s.encInHi = 0 ∧
  s.encOutLo = 0 ∧ s.encOutHi = 0 ∧ s.gcdRes = 0 ∧ s.pend = none ∧ ∀ v ∈ s.gcdBuf, v = 0

/-- STATUS reads 0 where nothing has been raised and no job is pending (R26). -/
theorem statusWord_eq_zero {s : State} (he : s.errcode = .none) (ho : s.overrun = false) (hp : s.pend = none) :
    s.statusWord = 0 := by
  simp [State.statusWord, State.err, zextBit, ErrCode.code, he, ho, hp]

/-- A buffer of zeros reads 0 at every index, past its end too. -/
theorem bufEntry_eq_zero {s : State} (hb : ∀ v ∈ s.gcdBuf, v = 0) (i : Nat) : s.bufEntry i = 0 := by
  by_cases hi : i < s.gcdBuf.length
  · simpa [State.bufEntry, hi] using hb _ (List.getElem_mem hi)
  · simp [State.bufEntry, hi]

/-- Of the registers at reset, only GCD_CAP reads other than 0 (R40). -/
theorem readRegister_eq_zero_of_registersAtReset {s : State} (h : s.RegistersAtReset) {r : Reg} (hr : r ≠ .gcdCap) :
    readRegister s r = 0 := by
  obtain ⟨he, ho, hCount, hInLo, hInHi, hOutLo, hOutHi, hRes, hp, hb⟩ := h
  cases r with
  | cmd => rfl
  | status => exact statusWord_eq_zero he ho hp
  | gcdCap => exact absurd rfl hr
  | gcdCount => exact hCount
  | encInLo => exact hInLo
  | encInHi => exact hInHi
  | encOutLo => exact hOutLo
  | encOutHi => exact hOutHi
  | gcdRes => exact hRes
  | gcdBuf i => exact bufEntry_eq_zero hb i
  | reserved => rfl

/-- The offset 0x008 reads the capacity, in every state (R27). -/
theorem readWindow_gcdCap (s : State) : readWindow s 0x008 = BitVec.ofNat 32 s.gcdBuf.length := rfl

/-- With the registers at reset, every offset but that of GCD_CAP reads 0. -/
theorem readWindow_eq_zero_of_registersAtReset {s : State} (h : s.RegistersAtReset) {off : Nat} (hoff : off ≠ 0x008) :
    readWindow s off = 0 :=
  readRegister_eq_zero_of_registersAtReset h fun hcap => hoff ((regAt_eq_iff _ _ _).mp hcap)

theorem reset_gcdBuf : State.reset.gcdBuf = List.replicate 64 0 := rfl

theorem reset_registersAtReset : State.reset.RegistersAtReset :=
  ⟨rfl, rfl, rfl, rfl, rfl, rfl, rfl, rfl, rfl, fun _ hv => List.eq_of_mem_replicate (reset_gcdBuf ▸ hv)⟩

/-- Settles O27: the map of R20 has one register that is not 0 at reset, GCD_CAP, and its offset is 0x008. -/
theorem resetStateReadsZero : Obligations.ResetStateReadsZero := by
  have capacity : readWindow State.reset 0x008 = 64 := by
    rw [readWindow_gcdCap, reset_gcdBuf, List.length_replicate]
    rfl
  exact ⟨fun _ hoff => readWindow_eq_zero_of_registersAtReset reset_registersAtReset hoff, capacity, rfl, rfl, rfl,
    reset_gcdBuf⟩

end Sys2Proof.Machine
end

section
/-! PROOFS. The registers the host can read but not set: STATUS and its fields (spec/10_state.md R26), GCD_CAP and the
capacity that no step changes (R27), and the reserved offsets (R33). -/

namespace Sys2Proof.Machine

/-! ### Host transactions at an admitted offset -/

/-- The two checks of R52 are the two conditions on the offset. -/
theorem offsetOk_iff (off : Nat) : offsetOk off = true ↔ off < 0x1000 ∧ off % 4 = 0 := by
  rw [offsetOk, Bool.and_eq_true]
  exact and_congr decide_eq_true_iff decide_eq_true_iff

/-- A read at an admitted offset hands READ's value to the host (R54). -/
theorem hostMove_rd {off : Nat} (hoff : offsetOk off = true) (s : State) :
    hostMove (.rd off) s = .next (hostRead off s) := by
  simp [hostMove, (offsetRefusal_eq_none off).mpr hoff]

/-- A write at an admitted offset other than CMD's is a write to the offset's register (R55). -/
theorem hostMove_wr {off : Nat} (hoff : offsetOk off = true) (hcmd : off ≠ 0x000) (s : State) (v : Word) :
    hostMove (.wr off v) s = .next (writeRegister s v (regAt s.gcdBuf.length off)) := by
  have hreg : regAt s.gcdBuf.length off ≠ .cmd := fun h => hcmd ((regAt_eq_iff _ _ _).mp h)
  simp [hostMove, (offsetRefusal_eq_none off).mpr hoff, writeWindow, hreg]

/-! ### The fields of STATUS -/

/-- No two error codes have the same number (R24). -/
theorem ErrCode.code_inj {c d : ErrCode} : c.code = d.code ↔ c = d := by
  cases c <;> cases d <;> decide

/-- STATUS.ERR says that an error is recorded (R23). -/
theorem err_eq (s : State) : s.err = decide (s.errcode ≠ .none) := by
  rw [Bool.eq_iff_iff, decide_eq_true_iff, State.err, bne_iff_ne]
  exact (ErrCode.code_inj (d := .none)).not

/-- A one-bit field stands in bit 0 of its word. -/
theorem zextBit_getLsbD (b : Bool) (i : Nat) : (zextBit b).getLsbD i = (decide (i = 0) && b) := by
  by_cases hi : i = 0 <;> simp [zextBit, hi]

/-- STATUS bit by bit (R26): each position belongs to one field at most, and the positions of no field are 0. -/
theorem statusWord_getLsbD (s : State) (i : Nat) :
    s.statusWord.getLsbD i =
      if i = 0 then s.busy
      else if i = 1 then s.err
      else if i = 8 then s.overrun
      else !decide (i < 4) && s.errcode.code.getLsbD (i - 4) := by
  simp only [State.statusWord, BitVec.getLsbD_or, BitVec.getLsbD_shiftLeft, zextBit_getLsbD, BitVec.getLsbD_setWidth]
  split_ifs with h0 h1 h8
  · simp [h0]
  · simp [h1]
  · simp [h8]
  · have herr : i - 1 ≠ 0 := by omega
    by_cases hcode : i < 8
    · have h32 : i < 32 := by omega
      have h36 : i - 4 < 32 := by omega
      simp [h0, herr, hcode, h32, h36]
    · have hoverrun : i - 8 ≠ 0 := by omega
      have hpast : 4 ≤ i - 4 := by omega
      simp [h0, herr, hoverrun, BitVec.getLsbD_of_ge _ _ hpast]

/-- Bits 7..4 of STATUS are ERRCODE (R26). -/
theorem statusWord_errcode (s : State) : s.statusWord.extractLsb' 4 4 = s.errcode.code := by
  ext i hi
  have h8 : 4 + i ≠ 8 := by omega
  have h1 : 4 + i ≠ 1 := by omega
  simp [statusWord_getLsbD, h8, h1, hi]

/-- The bits of STATUS below ERRCODE and above ERR are 0 (R26). -/
theorem statusWord_reserved_low (s : State) : s.statusWord.extractLsb' 2 2 = 0 := by
  ext i hi
  have h8 : 2 + i ≠ 8 := by omega
  have h1 : 2 + i ≠ 1 := by omega
  have h4 : 2 + i < 4 := by omega
  simp [statusWord_getLsbD, h8, h1, h4]

/-- The bits of STATUS above OVERRUN are 0 (R26). -/
theorem statusWord_reserved_high (s : State) : s.statusWord.extractLsb' 9 23 = 0 := by
  ext i hi
  have h8 : 9 + i ≠ 8 := by omega
  have h1 : 9 + i ≠ 1 := by omega
  have h4 : 4 ≤ 9 + i - 4 := by omega
  simp [statusWord_getLsbD, h8, h1, BitVec.getLsbD_of_ge _ _ h4]

/-- An error code is recorded exactly when its number stands in bits 7..4 of STATUS (R24, R26). -/
theorem errcode_eq_iff (s : State) (c : ErrCode) : s.errcode = c ↔ s.statusWord.extractLsb' 4 4 = c.code := by
  rw [statusWord_errcode, ErrCode.code_inj]

/-- Settles O18: the two transactions of R26, then its fields in the order of their bits. -/
theorem statusReadsItsFields : Obligations.StatusReadsItsFields := by
  intro s
  have busyBit : s.statusWord.getLsbD 0 = s.pend.isSome := statusWord_getLsbD s 0
  have errBit : s.statusWord.getLsbD 1 = decide (s.errcode ≠ .none) := (statusWord_getLsbD s 1).trans (err_eq s)
  have overrunBit : s.statusWord.getLsbD 8 = s.overrun := statusWord_getLsbD s 8
  exact ⟨hostMove_rd (by decide) s, hostMove_wr (by decide) (by decide) s, busyBit, errBit, statusWord_reserved_low s,
    statusWord_errcode s, errcode_eq_iff s .none, errcode_eq_iff s .invalidArity, errcode_eq_iff s .capacity,
    errcode_eq_iff s .illegalCmd, overrunBit, statusWord_reserved_high s⟩

/-! ### The capacity -/

/-- No accept procedure changes the buffer: a job takes a snapshot of it (R35). -/
theorem acceptOf_gcdBuf (i : Instr) (s : State) : (acceptOf i s).gcdBuf = s.gcdBuf := by
  obtain ⟨-, h⟩ | ⟨-, -, h⟩ | ⟨-, -, -, h⟩ | ⟨-, -, job, -, h⟩ := acceptOf_cases i s <;> simp [h]

/-- No word written to CMD changes the buffer (R85). -/
theorem issue_gcdBuf {v : Word} {s t : State} (h : issue v s = .next t) : t.gcdBuf = s.gcdBuf := by
  obtain ⟨-, hi⟩ | ⟨-, -, hi⟩ | ⟨-, i, -, hi⟩ := issue_cases v s <;> cases hi.symm.trans h
  · exact discardCommand_gcdBuf s
  · exact raiseError_gcdBuf _ _
  · exact acceptOf_gcdBuf i _

/-- A host line may write an entry of the buffer or, as reset, all of them, but it adds and removes none (R7, R210). -/
theorem hostMove_capacity {line : HostLine} {s t : State} (h : hostMove line s = .next t) :
    t.gcdBuf.length = s.gcdBuf.length := by
  obtain ⟨off, -, rfl⟩ | ⟨v, -, hv⟩ | ⟨off, v, -, -, -, rfl⟩ | ⟨off, mask, value, -, rfl | rfl⟩ | ⟨-, rfl⟩ :=
    hostMove_cases line s t h
  · rfl
  · rw [issue_gcdBuf hv]
  · obtain ⟨-, -, -, -, -, -, hlength⟩ := writeRegister_frame s v (regAt s.gcdBuf.length off)
    exact hlength
  · rfl
  · rfl
  · simp

/-- No step changes the capacity P_NMAX (R27). -/
theorem step_capacity {s t : State} (h : step s = .next t) : t.gcdBuf.length = s.gcdBuf.length := by
  obtain ⟨-, rfl⟩ | ⟨-, -, rfl⟩ | ⟨-, line, rest, -, hline⟩ := step_cases s t h
  · obtain ⟨-, -, -, ⟨-, -, -, hbuf⟩, -⟩ := complete_frame s
    rw [hbuf]
  · rfl
  · simpa using hostMove_capacity hline

/-- Settles O19: GCD_CAP's two transactions (R27), and the capacity over each kind of step. -/
theorem capacityIsConstant : Obligations.CapacityIsConstant :=
  ⟨hostMove_rd (by decide), hostMove_wr (by decide) (by decide), fun _ _ => step_capacity⟩

/-! ### The reserved offsets -/

/-- Settles O20: both ranges lie outside the rows of the map (R20), so their register is the reserved one. -/
theorem reservedOffsetsReadZero : Obligations.ReservedOffsetsReadZero := by
  intro s off v haligned hrange
  have hoff : offsetOk off = true := (offsetOk_iff off).mpr ⟨by omega, haligned⟩
  have hreg : regAt s.gcdBuf.length off = .reserved := regAt_reserved _ _ (by omega) (by omega)
  have hread : readWindow s off = 0 := by simp [readWindow, hreg, readRegister]
  constructor
  · rw [hostMove_rd hoff, hostRead, hread]
  · rw [hostMove_wr hoff (by omega), hreg, writeRegister]

end Sys2Proof.Machine
end

section
/-! PROOFS. What the host's two transactions do at each offset of the window: a read returns the register of the offset's
row (spec/20_memory.md R54), and a write stores into the four kinds of operand register, presents a command at CMD, and is
ignored everywhere else (R55). -/

namespace Sys2Proof.Machine

/-! ### Reads, row by row of the map -/

/-- A read at an offset in the row of a register hands that register's value to the host, and does no more (R54). -/
theorem hostMove_rd_row {off : Nat} {r : Reg} (s : State) (hoff : offsetOk off = true)
    (hrow : mapRow s.gcdBuf.length off r) :
    hostMove (.rd off) s = .next { s with returned := readRegister s r :: s.returned } := by
  have hreg : regAt s.gcdBuf.length off = r := (regAt_eq_iff _ _ _).mpr hrow
  rw [hostMove_rd hoff, hostRead, readWindow, pNMax_eq, hreg]

/-- Within the capacity, a register of the buffer reads its entry (R32, R54). -/
theorem readRegister_gcdBuf {s : State} {i : Nat} (hi : i < s.gcdBuf.length) :
    readRegister s (.gcdBuf i) = s.gcdBuf[i] :=
  List.getD_eq_getElem _ _ hi

/-- The offset of a buffer entry is in the window and aligned: the greatest legal capacity fills the window (R7, R20). -/
theorem offsetOk_gcdBuf {nMax i : Nat} (hn : nMax ≤ Config.pNMaxMost) (hi : i < nMax) :
    offsetOk (0x100 + 4 * i) = true := by
  have hmost : nMax ≤ 960 := hn
  exact (offsetOk_iff _).mpr ⟨by omega, by omega⟩

/-- Settles O21: each clause is the row of its register, read. -/
theorem readReturnsTheRegister : Obligations.ReadReturnsTheRegister := by
  intro s hcap
  refine ⟨hostMove_rd_row (r := .cmd) s (by decide) rfl, hostMove_rd_row (r := .status) s (by decide) rfl,
    hostMove_rd_row (r := .gcdCap) s (by decide) rfl, hostMove_rd_row (r := .gcdCount) s (by decide) rfl,
    hostMove_rd_row (r := .encInLo) s (by decide) rfl, hostMove_rd_row (r := .encInHi) s (by decide) rfl,
    hostMove_rd_row (r := .encOutLo) s (by decide) rfl, hostMove_rd_row (r := .encOutHi) s (by decide) rfl,
    hostMove_rd_row (r := .gcdRes) s (by decide) rfl, fun i hi => ?entry, fun off haligned hwindow hpast hbuf => ?other⟩
  case entry =>
    rw [hostMove_rd_row (r := .gcdBuf i) s (offsetOk_gcdBuf hcap hi) ⟨hi, rfl⟩, readRegister_gcdBuf hi]
  case other =>
    have hreg : regAt s.gcdBuf.length off = .reserved := regAt_reserved _ _ hpast hbuf
    exact hostMove_rd_row (r := .reserved) s ((offsetOk_iff _).mpr ⟨hwindow, haligned⟩) ((regAt_eq_iff _ _ _).mp hreg)

/-! ### Writes, row by row of the map -/

/-- A write to CMD is ISSUE of the word (R55, R85). -/
theorem hostMove_wr_cmd (s : State) (v : Word) : hostMove (.wr 0x000 v) s = issue v s := by
  have hreg : regAt s.gcdBuf.length 0x000 = .cmd := (regAt_eq_iff _ _ _).mpr rfl
  have hoff : offsetRefusal 0x000 = none := (offsetRefusal_eq_none _).mpr (by decide)
  simp [hostMove, hoff, writeWindow, hreg]

/-- A write at an offset in the row of a register other than CMD is a write to that register (R55). -/
theorem hostMove_wr_row {off : Nat} {r : Reg} (s : State) (v : Word) (hoff : offsetOk off = true) (hcmd : off ≠ 0x000)
    (hrow : mapRow s.gcdBuf.length off r) : hostMove (.wr off v) s = .next (writeRegister s v r) := by
  rw [hostMove_wr hoff hcmd, (regAt_eq_iff _ _ _).mpr hrow]

/-- Outside the rows of the operand registers a write is ignored (R55): writeRegister_spec leaves it nothing to change. -/
theorem writeRegister_regAt_ignored {s : State} {off : Nat} (v : Word) (hcount : off ≠ 0x00C) (hlo : off ≠ 0x010)
    (hhi : off ≠ 0x014) (hbuf : ¬ (0x100 ≤ off ∧ off < 0x100 + 4 * s.gcdBuf.length)) :
    writeRegister s v (regAt s.gcdBuf.length off) = s := by
  obtain ⟨hr, -⟩ | ⟨hr, -⟩ | ⟨hr, -⟩ | ⟨i, hr, -⟩ | hsame := writeRegister_spec s v (regAt s.gcdBuf.length off)
  · exact absurd ((regAt_eq_iff _ _ _).mp hr) hcount
  · exact absurd ((regAt_eq_iff _ _ _).mp hr) hlo
  · exact absurd ((regAt_eq_iff _ _ _).mp hr) hhi
  · obtain ⟨hi, hoff⟩ : i < s.gcdBuf.length ∧ off = 0x100 + 4 * i := (regAt_eq_iff _ _ _).mp hr
    exact absurd ⟨by omega, by omega⟩ hbuf
  · exact hsame

/-- Settles O22: CMD's write, then the operand registers' rows, then the offsets where a write is ignored. None of the
lemmas asks whether a job is in progress. -/
theorem writeStoresTheRegister : Obligations.WriteStoresTheRegister := by
  intro s v hcap
  refine ⟨hostMove_wr_cmd s v, hostMove_wr_row (r := .gcdCount) s v (by decide) (by decide) rfl,
    hostMove_wr_row (r := .encInLo) s v (by decide) (by decide) rfl,
    hostMove_wr_row (r := .encInHi) s v (by decide) (by decide) rfl, fun i hi => ?entry,
    fun off haligned hwindow hcmd hcount hlo hhi hbuf => ?ignored⟩
  case entry =>
    exact hostMove_wr_row (r := .gcdBuf i) s v (offsetOk_gcdBuf hcap hi) (by omega) ⟨hi, rfl⟩
  case ignored =>
    rw [hostMove_wr ((offsetOk_iff _).mpr ⟨hwindow, haligned⟩) hcmd, writeRegister_regAt_ignored v hcount hlo hhi hbuf]

end Sys2Proof.Machine
end

section
/-! PROOFS. The command word (spec/30_encoding.md): the decoder and the encoder over all 2^32 words (R81, R83, R84),
which words are illegal and what writing a word does (R85, R86). -/

namespace Sys2Proof

/-! ### The fields of a word -/

/-- RSVD, ALG and OP are all of a word (R81). -/
theorem fields_append (w : Word) : cmdRsvd w ++ cmdAlg w ++ cmdOp w = w := by
  have high : cmdRsvd w ++ cmdAlg w = w.extractLsb' 8 24 := BitVec.extractLsb'_append_extractLsb'_eq_extractLsb' rfl
  have whole : w.extractLsb' 8 24 ++ cmdOp w = w.extractLsb' 0 32 :=
    BitVec.extractLsb'_append_extractLsb'_eq_extractLsb' rfl
  rw [high, whole, BitVec.extractLsb'_eq_self]

/-- With no reserved bit set, OP and ALG determine the word. -/
theorem eq_commandWord {w : Word} {op : BitVec 8} {alg : BitVec 1} (hr : cmdRsvd w = 0)
    (hop : (cmdOp w).toNat = op.toNat) (ha : cmdAlg w = alg) : w = commandWord op alg := by
  rw [← fields_append w, hr, ha, BitVec.eq_of_toNat_eq hop, commandWord]

/-- The word of a command is in none of the groups of R86. -/
theorem encode_assigned (i : Instr) :
    cmdRsvd (encode i) = 0 ∧ (cmdOp (encode i)).toNat < 5 ∧ encode i ≠ 0x100 ∧ encode i ≠ 0x101 := by
  cases i <;> decide

/-! ### What the decoder's answer says of the word -/

/-- The condition on the word that each answer of the decoder stands for: the command's word (R83), or the group of
R86. -/
def Decoded.Describes : Decoded → Word → Prop
  | .command i, w => w = encode i
  | .illegal .reservedBits, w => cmdRsvd w ≠ 0
  | .illegal .algWithoutPair, w => w = 0x100 ∨ w = 0x101
  | .illegal .unassignedOp, w => 5 ≤ (cmdOp w).toNat

/-- The decoder's answer describes the word, branch by branch of R84. -/
theorem decode_describes (w : Word) : (decode w).Describes w := by
  unfold decode
  split
  case isTrue hr => exact hr
  case isFalse hr =>
    have word (op : BitVec 8) (alg : BitVec 1) :
        (cmdOp w).toNat = op.toNat → cmdAlg w = alg → w = commandWord op alg :=
      eq_commandWord (not_not.mp hr)
    have alg_eq_one : cmdAlg w ≠ 0 → cmdAlg w = 1 := (BitVec.eq_zero_or_eq_one (cmdAlg w)).resolve_left
    split
    case h_1 hop =>
      split_ifs with ha
      · exact word 0x00 0 hop ha
      · exact .inl (word 0x00 1 hop (alg_eq_one ha))
    case h_2 hop =>
      split_ifs with ha
      · exact word 0x01 0 hop ha
      · exact .inr (word 0x01 1 hop (alg_eq_one ha))
    case h_3 hop =>
      split_ifs with ha
      · exact word 0x02 0 hop ha
      · exact word 0x02 1 hop (alg_eq_one ha)
    case h_4 hop =>
      split_ifs with ha
      · exact word 0x03 0 hop ha
      · exact word 0x03 1 hop (alg_eq_one ha)
    case h_5 hop =>
      split_ifs with ha
      · exact word 0x04 0 hop ha
      · exact word 0x04 1 hop (alg_eq_one ha)
    case h_6 h0 h1 h2 h3 h4 =>
      change (cmdOp w).toNat ≠ _ at h0 h1 h2 h3 h4
      show 5 ≤ (cmdOp w).toNat
      omega

theorem decode_encode (i : Instr) : decode (encode i) = .command i := by
  cases i <;> rfl

/-- A word decodes to a command exactly when it is the command's word (R83, R84). -/
theorem decode_eq_command_iff (w : Word) (i : Instr) : decode w = .command i ↔ w = encode i := by
  constructor
  · intro hd
    have describes := decode_describes w
    rwa [hd] at describes
  · rintro rfl
    exact decode_encode i

/-- A word that is no command's is illegal: the decoder has no third answer (R84). -/
theorem decode_illegal_of_ne_encode {w : Word} (hw : ∀ i, w ≠ encode i) : ∃ why, decode w = .illegal why := by
  cases hd : decode w with
  | command i => exact absurd ((decode_eq_command_iff w i).mp hd) (hw i)
  | illegal why => exact ⟨why, rfl⟩

/-- The illegal words are those of R86's three groups. -/
theorem decode_illegal_iff (w : Word) :
    (∃ why, decode w = .illegal why) ↔ cmdRsvd w ≠ 0 ∨ 5 ≤ (cmdOp w).toNat ∨ w = 0x100 ∨ w = 0x101 := by
  constructor
  · rintro ⟨why, hd⟩
    have describes := decode_describes w
    rw [hd] at describes
    cases why with
    | reservedBits => exact .inl describes
    | algWithoutPair => exact .inr (.inr describes)
    | unassignedOp => exact .inr (.inl describes)
  · intro hgroup
    apply decode_illegal_of_ne_encode
    rintro i rfl
    obtain ⟨hr, hop, h100, h101⟩ := encode_assigned i
    obtain h | h | h | h := hgroup
    · exact h hr
    · exact Nat.not_le_of_lt hop h
    · exact h100 h
    · exact h101 h

/-- Settles O2: the decoder inverts the encoder, and its only other answer is ILLEGAL. -/
theorem decodeAcceptsExactlyTheEncodedWords : Obligations.DecodeAcceptsExactlyTheEncodedWords :=
  ⟨decode_eq_command_iff, by decide, fun _ => decode_illegal_of_ne_encode⟩

end Sys2Proof

namespace Sys2Proof.Machine

/-! ### Writing a word to CMD -/

/-- Every word written to CMD, in every state, has a next state (R86). -/
theorem issue_defined (v : Word) (s : State) : ∃ t, issue v s = .next t := by
  obtain ⟨-, h⟩ | ⟨-, -, h⟩ | ⟨-, i, -, h⟩ := issue_cases v s <;> exact ⟨_, h⟩

/-- Settles O3: the groups of R86, then the write to an idle block, to a busy one, and of any word. -/
theorem illegalWordsRecordIllegalCmd : Obligations.IllegalWordsRecordIllegalCmd :=
  ⟨decode_illegal_iff, fun w _ _ hd => ⟨fun idle => issue_illegal idle hd, issue_busy w⟩, issue_defined⟩

end Sys2Proof.Machine
end

section
/-! PROOFS. The encoder's input and its completion (spec/40_encoder.md): the class of an input word by its fields (R100,
R101), and the two halves of ENC_OUT, written at once (R112). -/

namespace Sys2Proof.Machine

/-! ### The fields of an input word -/

/-- The sign field is bit 63, alone (R100). -/
theorem signField_eq_ofBool (w : DWord) : signField w = BitVec.ofBool (w.getLsbD 63) := by
  ext i hi
  obtain rfl : i = 0 := by omega
  simp [signField]

theorem signField_eq_zero_iff (w : DWord) : signField w = 0 ↔ w.getLsbD 63 = false := by
  rw [signField_eq_ofBool]
  cases w.getLsbD 63 <;> decide

theorem signField_ne_zero_iff (w : DWord) : signField w ≠ 0 ↔ w.getLsbD 63 = true := by
  rw [Ne, signField_eq_zero_iff, Bool.not_eq_false]

/-- An exponent field that is neither all zeros nor all ones lies in the range of the NORMAL row (R101). -/
theorem exponentField_range_iff (w : DWord) :
    1 ≤ (exponentField w).toNat ∧ (exponentField w).toNat ≤ 2046 ↔ exponentField w ≠ 0 ∧ exponentField w ≠ 2047 := by
  have hlt : (exponentField w).toNat < 2048 := (exponentField w).isLt
  have hzero : exponentField w = 0 ↔ (exponentField w).toNat = 0 := BitVec.toNat_inj.symm
  have hones : exponentField w = 2047 ↔ (exponentField w).toNat = 2047 := BitVec.toNat_inj.symm
  rw [Ne, Ne, hzero, hones]
  omega

/-! ### The table of R101 -/

/-- The condition of each class's row in the table of R101. -/
def FloatClass.Row : FloatClass → DWord → Prop
  | .pzero, w => exponentField w = 0 ∧ fractionField w = 0 ∧ w.getLsbD 63 = false
  | .nzero, w => exponentField w = 0 ∧ fractionField w = 0 ∧ w.getLsbD 63 = true
  | .subnormal, w => exponentField w = 0 ∧ fractionField w ≠ 0
  | .normal, w => 1 ≤ (exponentField w).toNat ∧ (exponentField w).toNat ≤ 2046
  | .pinf, w => exponentField w = 2047 ∧ fractionField w = 0 ∧ w.getLsbD 63 = false
  | .ninf, w => exponentField w = 2047 ∧ fractionField w = 0 ∧ w.getLsbD 63 = true
  | .nan, w => exponentField w = 2047 ∧ fractionField w ≠ 0

/-- The row of the class holds, branch by branch of the classification: every word is in some row. -/
theorem classify_row (w : DWord) : (classify w).Row w := by
  unfold classify
  split_ifs with hexp hfrac hsign hones hfrac hsign
  · exact ⟨hexp, hfrac, (signField_eq_zero_iff w).mp hsign⟩
  · exact ⟨hexp, hfrac, (signField_ne_zero_iff w).mp hsign⟩
  · exact ⟨hexp, hfrac⟩
  · exact ⟨hones, hfrac, (signField_eq_zero_iff w).mp hsign⟩
  · exact ⟨hones, hfrac, (signField_ne_zero_iff w).mp hsign⟩
  · exact ⟨hones, hfrac⟩
  · exact (exponentField_range_iff w).mpr ⟨hexp, hones⟩

/-- With the exponent all zeros, the fraction and the sign decide (R101). -/
theorem classify_of_exponent_zeros {w : DWord} (hexp : exponentField w = 0) :
    classify w =
      if fractionField w = 0 then (if signField w = 0 then .pzero else .nzero) else .subnormal :=
  if_pos hexp

/-- With the exponent all ones, the fraction and the sign decide (R101). -/
theorem classify_of_exponent_ones {w : DWord} (hexp : exponentField w = 2047) :
    classify w = if fractionField w = 0 then (if signField w = 0 then .pinf else .ninf) else .nan := by
  have hzero : exponentField w ≠ 0 := by rw [hexp]; decide
  rw [classify, if_neg hzero, if_pos hexp]

/-- A word in the row of a class has that class: no word is in two rows. -/
theorem classify_of_row {c : FloatClass} {w : DWord} (h : c.Row w) : classify w = c := by
  cases c with
  | pzero =>
    obtain ⟨hexp, hfrac, hsign⟩ := h
    rw [classify_of_exponent_zeros hexp, if_pos hfrac, if_pos ((signField_eq_zero_iff w).mpr hsign)]
  | nzero =>
    obtain ⟨hexp, hfrac, hsign⟩ := h
    rw [classify_of_exponent_zeros hexp, if_pos hfrac, if_neg ((signField_ne_zero_iff w).mpr hsign)]
  | subnormal =>
    obtain ⟨hexp, hfrac⟩ := h
    rw [classify_of_exponent_zeros hexp, if_neg hfrac]
  | normal =>
    obtain ⟨hzeros, hones⟩ := (exponentField_range_iff w).mp h
    rw [classify, if_neg hzeros, if_neg hones]
  | pinf =>
    obtain ⟨hexp, hfrac, hsign⟩ := h
    rw [classify_of_exponent_ones hexp, if_pos hfrac, if_pos ((signField_eq_zero_iff w).mpr hsign)]
  | ninf =>
    obtain ⟨hexp, hfrac, hsign⟩ := h
    rw [classify_of_exponent_ones hexp, if_pos hfrac, if_neg ((signField_ne_zero_iff w).mpr hsign)]
  | nan =>
    obtain ⟨hexp, hfrac⟩ := h
    rw [classify_of_exponent_ones hexp, if_neg hfrac]

/-- CLASS(w) is the table of R101: a word has a class exactly when the class's row holds. -/
theorem classify_eq_iff_row (w : DWord) (c : FloatClass) : classify w = c ↔ c.Row w :=
  ⟨fun h => h ▸ classify_row w, classify_of_row⟩

/-- Settles O29, row by row of the table. -/
theorem classifyFollowsTheFields : Obligations.ClassifyFollowsTheFields := fun w =>
  ⟨classify_eq_iff_row w .pzero, classify_eq_iff_row w .nzero, classify_eq_iff_row w .subnormal,
    classify_eq_iff_row w .normal, classify_eq_iff_row w .pinf, classify_eq_iff_row w .ninf,
    classify_eq_iff_row w .nan⟩

/-! ### The completion of ENC -/

/-- Settles O6: of the completion's cases (complete_cases) only that of an ENC job applies, and its job is the pending
one. -/
theorem encCompletionWritesBothHalves : Obligations.EncCompletionWritesBothHalves := by
  intro s w hpend
  obtain ⟨hnone, -⟩ | ⟨v, henc, hcomplete⟩ | ⟨job, hjob, hgcd, -⟩ := complete_cases s
  · cases hpend.symm.trans hnone
  · obtain rfl : w = v := by simpa [hpend] using henc
    exact hcomplete
  · obtain rfl : .enc w = job := by simpa [hpend] using hjob
    cases hgcd

end Sys2Proof.Machine
end

section
/-! PROOFS. The GCD engine's result (spec/41_gcd.md): no pair algorithm and no round of REDUCE leaves the range of the
magnitudes it starts from, so GCDRESULT fits GCD_RES (R131), which is all that a GCD job's completion writes (R142). -/

namespace Sys2Proof.Machine

/-! ### The magnitudes an algorithm can reach -/

/-- A pass of EUCLID makes one number smaller and keeps the other (R132). -/
theorem euclidLoop_le {n : Nat} (fuel : Nat) {a b : Nat} (ha : a ≤ n) (hb : b ≤ n) : euclidLoop fuel a b ≤ n := by
  induction fuel generalizing a b with
  | zero => exact ha
  | succ fuel ih =>
    rw [euclidLoop]
    split_ifs
    · exact ha
    · exact ih (by omega) hb
    · exact ih ha (by omega)

/-- A call of STEIN makes no number larger, and doubles only a result of two halved ones (R133). -/
theorem steinLoop_le {n : Nat} (fuel : Nat) {a b : Nat} (ha : a ≤ n) (hb : b ≤ n) : steinLoop fuel a b ≤ n := by
  induction fuel generalizing a b n with
  | zero => exact ha
  | succ fuel ih =>
    rw [steinLoop]
    split_ifs
    · exact ha
    · exact hb
    · exact ha
    · calc 2 * steinLoop fuel (a / 2) (b / 2)
        _ ≤ 2 * (n / 2) := Nat.mul_le_mul_left 2 (ih (Nat.div_le_div_right ha) (Nat.div_le_div_right hb))
        _ ≤ n := Nat.mul_div_le n 2
    · exact ih (by omega) hb
    · exact ih ha (by omega)
    · exact ih (by omega) (by omega)

/-- Neither pair algorithm exceeds a bound on its operands' magnitudes (R134). -/
theorem pairGcd_le {n : Nat} (alg : Alg) {x y : Int} (hx : x.natAbs ≤ n) (hy : y.natAbs ≤ n) : pairGcd alg x y ≤ n := by
  cases alg with
  | euclid =>
    rw [pairGcd, euclid]
    split_ifs
    · exact hy
    · exact hx
    · exact euclidLoop_le _ hx hy
  | stein => exact steinLoop_le _ hx hy

section Reduce

variable {n : Nat} {g : Int → Int → Nat} (hg : ∀ {x y : Int}, x.natAbs ≤ n → y.natAbs ≤ n → g x y ≤ n)
include hg

/-- A round's elements are results of `g`, and at most one element carried forward (R135). -/
theorem reduceRound_natAbs_le (l : List Int) (hl : ∀ x ∈ l, x.natAbs ≤ n) : ∀ x ∈ reduceRound g l, x.natAbs ≤ n := by
  induction l using reduceRound.induct with
  | case1 a b rest ih =>
    simp only [List.forall_mem_cons] at hl
    obtain ⟨ha, hb, hrest⟩ := hl
    rw [reduceRound, List.forall_mem_cons, Int.natAbs_natCast]
    exact ⟨hg ha hb, ih hrest⟩
  | case2 l hshort =>
    rw [reduceRound]
    · exact hl
    · exact hshort

/-- REDUCE keeps a bound that `g` keeps, whatever its fuel (R135). -/
theorem reduceLoop_le (fuel : Nat) (l : List Int) (hl : ∀ x ∈ l, x.natAbs ≤ n) : reduceLoop g fuel l ≤ n := by
  induction fuel, l using reduceLoop.induct g with
  | case1 => simp [reduceLoop]
  | case2 _ a => simpa [reduceLoop] using hl
  | case3 _ a b =>
    simp only [List.forall_mem_cons] at hl
    obtain ⟨ha, hb, -⟩ := hl
    rw [reduceLoop]
    exact hg ha hb
  | case4 a b c rest =>
    rw [reduceLoop]
    exact hl a List.mem_cons_self
  | case5 fuel a b c rest ih =>
    rw [reduceLoop]
    exact ih (reduceRound_natAbs_le hg _ hl)

end Reduce

/-! ### The result of a job -/

/-- An operand's magnitude is at most 2^31, which the word 0x80000000 has (R130). -/
theorem natAbs_sint_le (v : Word) : (sint v).natAbs ≤ 2 ^ 31 := by
  have hlow : -2 ^ 31 ≤ sint v := BitVec.le_toInt v
  have hhigh : sint v < 2 ^ 31 := BitVec.toInt_lt
  omega

/-- GCDRESULT is at most 2^31, for every kind and any number of operands (R131). -/
theorem gcdResult_le (job : Job) : gcdResult job ≤ 2 ^ 31 := by
  cases job with
  | enc w => exact Nat.zero_le _
  | gcd2 alg a b => exact pairGcd_le alg (natAbs_sint_le a) (natAbs_sint_le b)
  | gcd3 alg a b c =>
    have hab : pairGcd alg (sint a) (sint b) ≤ 2 ^ 31 := pairGcd_le alg (natAbs_sint_le a) (natAbs_sint_le b)
    exact pairGcd_le alg hab (natAbs_sint_le c)
  | gcdn alg ops =>
    exact reduceLoop_le (pairGcd_le alg) _ _ (List.forall_mem_map.mpr fun v _ => natAbs_sint_le v)

/-! ### The completion of a GCD job -/

/-- Of the completion's cases (complete_cases) only that of a GCD job applies to one. -/
theorem complete_of_isGcd {s : State} {job : Job} (hpend : s.pend = some job) (hgcd : job.isGcd = true) :
    complete s = { s with gcdRes := BitVec.ofNat 32 (gcdResult job), pend := none } := by
  obtain ⟨hnone, -⟩ | ⟨w, henc, -⟩ | ⟨other, hother, -, hcomplete⟩ := complete_cases s
  · cases hpend.symm.trans hnone
  · obtain rfl : job = .enc w := by simpa [hpend] using henc
    cases hgcd
  · obtain rfl : job = other := by simpa [hpend] using hother
    exact hcomplete

/-- Settles O7, kind by kind: GCDRESULT of the kind (R142) is what the completion writes, and it fits the register. -/
theorem gcdCompletionWritesTheResult : Obligations.GcdCompletionWritesTheResult := fun _ =>
  ⟨fun alg a b hpend => ⟨gcdResult_le (.gcd2 alg a b), complete_of_isGcd hpend rfl⟩,
    fun alg a b c hpend => ⟨gcdResult_le (.gcd3 alg a b c), complete_of_isGcd hpend rfl⟩,
    fun alg ops hpend => ⟨gcdResult_le (.gcdn alg ops), complete_of_isGcd hpend rfl⟩⟩

end Sys2Proof.Machine
end

section
/-! PROOFS. The control command NOP (spec/42_control.md): its effect on an idle and on a busy block (R170), and that BUSY
can be told from the STATUS word (R22, R26). -/

namespace Sys2Proof.Machine

/-- On an idle block NOP writes the two status fields and no other (R170). -/
theorem exec_nop_idle {s : State} (idle : s.pend = none) :
    exec .nop s = .next { s with errcode := .none, overrun := false } :=
  calc exec .nop s
    _ = presentCommand acceptNop s := exec_eq .nop s
    _ = .next (acceptNop (clearOverrun s)) := presentCommand_idle acceptNop idle

/-- With a job in progress NOP is discarded as every command is (R186). -/
theorem exec_nop_busy {s : State} (busy : s.pend ≠ none) : exec .nop s = .next { s with overrun := true } :=
  calc exec .nop s
    _ = presentCommand acceptNop s := exec_eq .nop s
    _ = .next (discardCommand s) := presentCommand_busy acceptNop busy

/-- Bit 0 of STATUS is BUSY, so a block whose STATUS word is even has no job in progress (R22, R26). -/
theorem pend_eq_none_of_busyBit {s : State} (hbit : s.statusWord.getLsbD 0 = false) : s.pend = none := by
  have busyBit : s.statusWord.getLsbD 0 = s.pend.isSome := statusWord_getLsbD s 0
  rwa [busyBit, Option.isSome_eq_false_iff, Option.isNone_iff_eq_none] at hbit

/-- NOP accepted by an idle block leaves STATUS = 0 (R26, R170). -/
theorem statusWord_of_exec_nop {s t : State} (idle : s.pend = none) (hexec : exec .nop s = .next t) :
    t.statusWord = 0 := by
  rw [exec_nop_idle idle] at hexec
  cases hexec
  exact statusWord_eq_zero rfl rfl idle

/-- Settles O8: the idle block, the busy one, and reset and STATUS = 0x12 as instances of the idle one. -/
theorem nopClearsTheStatusFields : Obligations.NopClearsTheStatusFields := by
  refine ⟨fun _ => exec_nop_idle, fun _ => exec_nop_busy, exec_nop_idle rfl, by decide, by decide, ?_⟩
  intro s t hstatus hexec
  have even : s.statusWord.getLsbD 0 = false := by rw [hstatus]; decide
  exact statusWord_of_exec_nop (pend_eq_none_of_busyBit even) hexec

end Sys2Proof.Machine
end

section
/-! PROOFS. The errors (spec/60_exceptions.md): what a word written to CMD of an idle block may record in ERRCODE, the cause
of each code (R183, R184), and the frame of an erring write (R189). -/

namespace Sys2Proof.Machine

/-- RAISE after an accepted word (R182, R25): OVERRUN is cleared and the error is recorded. -/
def errorEntry (code : ErrCode) (s : State) : State := raiseError code (clearOverrun s)

@[simp] theorem errorEntry_errcode (code : ErrCode) (s : State) : (errorEntry code s).errcode = code := rfl

theorem errorEntry_eq (code : ErrCode) (s : State) :
    errorEntry code s = { s with errcode := code, overrun := false } := rfl

/-- All that a word written to CMD of an idle block can do to ERRCODE: the error entry of each cause (R183, R184), or a
command accepted without an error, which leaves ERRCODE clear. -/
theorem issue_idle_cases {w : Word} {s t : State} (idle : s.pend = none) (h : issue w s = .next t) :
    ((∃ why, decode w = .illegal why) ∧ t = errorEntry .illegalCmd s) ∨
    ∃ i, decode w = .command i ∧
      (((i = .gcdnE ∨ i = .gcdnS) ∧ s.gcdCount.toNat < 2 ∧ t = errorEntry .invalidArity s) ∨
       ((i = .gcdnE ∨ i = .gcdnS) ∧ 2 ≤ s.gcdCount.toNat ∧ s.gcdBuf.length < s.gcdCount.toNat ∧
         t = errorEntry .capacity s) ∨
       (((i = .gcdnE ∨ i = .gcdnS) → 2 ≤ s.gcdCount.toNat ∧ s.gcdCount.toNat ≤ s.gcdBuf.length) ∧
         t.errcode = .none)) := by
  obtain ⟨busy, -⟩ | ⟨-, hd, hi⟩ | ⟨-, i, hd, hi⟩ := issue_cases w s
  · exact absurd idle busy
  · cases hi.symm.trans h
    exact .inl ⟨hd, rfl⟩
  · cases hi.symm.trans h
    refine .inr ⟨i, hd, ?_⟩
    obtain ⟨rfl, ha⟩ | ⟨hgcdn, few, ha⟩ | ⟨hgcdn, enough, many, ha⟩ | ⟨-, fits, job, -, ha⟩ :=
      acceptOf_cases i (clearOverrun s)
    · exact .inr (.inr ⟨by simp, by rw [ha]⟩)
    · exact .inl ⟨hgcdn, few, ha⟩
    · exact .inr (.inl ⟨hgcdn, enough, many, ha⟩)
    · exact .inr (.inr ⟨fits, by rw [ha]; rfl⟩)

/-- Settles O13: the write takes one of the four ways of issue_idle_cases, and their conditions exclude each other, the
two bounds on the count because the capacity is at least 3. -/
theorem errorCodesHaveTheirCauses : Obligations.ErrorCodesHaveTheirCauses := by
  intro w s t idle least h
  have three : 3 ≤ s.gcdBuf.length := least
  obtain ⟨⟨why, hd⟩, rfl⟩ | ⟨i, hd, ⟨hgcdn, few, rfl⟩ | ⟨hgcdn, enough, many, rfl⟩ | ⟨fits, he⟩⟩ :=
    issue_idle_cases idle h
  · simp [hd]
  · have notMany : ¬ s.gcdBuf.length < s.gcdCount.toNat := by omega
    simp [hd, hgcdn, few, notMany]
  · have notFew : ¬ s.gcdCount.toNat < 2 := by omega
    simp [hd, hgcdn, many, notFew]
  · have notFew (hgcdn : i = .gcdnE ∨ i = .gcdnS) : ¬ s.gcdCount.toNat < 2 := Nat.not_lt.mpr (fits hgcdn).1
    have notMany (hgcdn : i = .gcdnE ∨ i = .gcdnS) : ¬ s.gcdBuf.length < s.gcdCount.toNat :=
      Nat.not_lt.mpr (fits hgcdn).2
    simpa [hd, he] using And.intro notFew notMany

/-- Settles O14: each way of issue_idle_cases that leaves an error is the error entry. -/
theorem errorEntryIsPrecise : Obligations.ErrorEntryIsPrecise := by
  intro w s t idle h err
  obtain ⟨-, rfl⟩ | ⟨i, -, ⟨-, -, rfl⟩ | ⟨-, -, -, rfl⟩ | ⟨-, clear⟩⟩ := issue_idle_cases idle h
  · exact errorEntry_eq .illegalCmd s
  · exact errorEntry_eq .invalidArity s
  · exact errorEntry_eq .capacity s
  · exact absurd clear err

end Sys2Proof.Machine
end

section
/-! PROOFS. What one line from outside can leave (spec/20_memory.md R50, R54, R55, R210, spec/30_encoding.md R85), as one
relation with a constructor for each effect; what every step keeps (spec/10_state.md R36, R53); and which step may change
which part of the state (R24, R25, R30, R31). -/

namespace Sys2Proof.Machine

/-! ### The effects of a line -/

/-- `LineEffect line s t`: the line, taken at `s`, may leave `t`. -/
inductive LineEffect : HostLine → State → State → Prop
  /-- A read is handed to the host (R54). -/
  | read (off : Nat) {s : State} : LineEffect (.rd off) s (hostRead off s)
  /-- A polling line whose condition holds (R89). -/
  | pollEnds (off : Nat) (mask value : Word) {s : State} : LineEffect (.poll off mask value) s (hostRead off s)
  /-- A polling line whose condition does not hold yet (R89). -/
  | pollGoesOn (off : Nat) (mask value : Word) {s : State} :
      LineEffect (.poll off mask value) s { hostRead off s with host := .poll off mask value :: s.host }
  /-- A write to a register other than CMD (R55). -/
  | store (off : Nat) (v : Word) {s : State} (hcmd : off ≠ 0x000) :
      LineEffect (.wr off v) s (writeRegister s v (regAt s.gcdBuf.length off))
  /-- A word written to CMD while a job is in progress (R186). -/
  | discard (v : Word) {s : State} (busy : s.pend ≠ none) : LineEffect (.wr 0x000 v) s (discardCommand s)
  /-- A word that an idle block accepts without starting a job: NOP, or an erring one (R170, R182). -/
  | record (v : Word) {s : State} (code : ErrCode) (idle : s.pend = none) :
      LineEffect (.wr 0x000 v) s (errorEntry code s)
  /-- A job command that an idle block accepts (R85). -/
  | start (v : Word) {s : State} (i : Instr) (job : Job) (idle : s.pend = none) (hdecode : decode v = .command i)
      (hjob : i ≠ .nop) (hwf : job.wf s.gcdBuf.length) : LineEffect (.wr 0x000 v) s (startJob job (clearOverrun s))
  /-- The platform's reset (R210). -/
  | reset {s : State} : LineEffect .reset s (resetBlock s)

/-- A word written to CMD has one of the three effects of R85. -/
theorem issue_effect {v : Word} {s t : State} (h : issue v s = .next t) : LineEffect (.wr 0x000 v) s t := by
  obtain ⟨busy, hi⟩ | ⟨idle, -, hi⟩ | ⟨idle, i, hdecode, hi⟩ := issue_cases v s <;> cases hi.symm.trans h
  · exact .discard v busy
  · exact .record v .illegalCmd idle
  · obtain ⟨-, ha⟩ | ⟨-, -, ha⟩ | ⟨-, -, -, ha⟩ | ⟨hjob, -, job, hwf, ha⟩ := acceptOf_cases i (clearOverrun s) <;> rw [ha]
    · exact .record v .none idle
    · exact .record v .invalidArity idle
    · exact .record v .capacity idle
    · exact .start v i job idle hdecode hjob hwf

/-- An admitted line has one of the effects. -/
theorem hostMove_effect {line : HostLine} {s t : State} (h : hostMove line s = .next t) : LineEffect line s t := by
  obtain ⟨off, rfl, rfl⟩ | ⟨v, rfl, hv⟩ | ⟨off, v, rfl, hcmd, -, rfl⟩ | ⟨off, mask, value, rfl, rfl | rfl⟩ | ⟨rfl, rfl⟩ :=
    hostMove_cases line s t h
  · exact .read off
  · exact issue_effect hv
  · exact .store off v hcmd
  · exact .pollEnds off mask value
  · exact .pollGoesOn off mask value
  · exact .reset

/-- All that a step can do: complete the job, stay, or have the effect of the next line. -/
theorem step_effect {s t : State} (h : step s = .next t) :
    (completionDue s = true ∧ t = complete s) ∨ t = s ∨
    ∃ line rest, completionDue s = false ∧ s.host = line :: rest ∧ LineEffect line (takeLine rest s) t := by
  obtain ⟨due, ht⟩ | ⟨-, -, ht⟩ | ⟨due, line, rest, hhost, hline⟩ := step_cases s t h
  · exact .inl ⟨due, ht⟩
  · exact .inr (.inl ht)
  · exact .inr (.inr ⟨line, rest, due, hhost, hostMove_effect hline⟩)

/-! ### The lines still to come -/

/-- A line is gone once it is taken, unless it is a polling line that goes on (R89). -/
theorem LineEffect.host {line : HostLine} {s t : State} (h : LineEffect line s t) :
    t.host = s.host ∨ (line.isPoll = true ∧ t.host = line :: s.host) := by
  cases h with
  | pollGoesOn => exact .inr ⟨rfl, rfl⟩
  | store off v =>
    obtain ⟨-, -, -, -, ⟨hhost, -⟩, -⟩ := writeRegister_frame s v (regAt s.gcdBuf.length off)
    exact .inl hhost
  | start => exact .inl (by simp)
  | _ => exact .inl rfl

/-- A step brings no new line. -/
theorem step_host_subset {s t : State} (h : step s = .next t) : t.host ⊆ s.host := by
  obtain ⟨-, rfl⟩ | rfl | ⟨line, rest, -, hhost, heffect⟩ := step_effect h
  · obtain ⟨-, -, -, -, ⟨hhost, -⟩, -⟩ := complete_frame s
    rw [hhost]
    exact List.Subset.refl _
  · exact List.Subset.refl _
  · rw [hhost]
    obtain hrest | ⟨-, hagain⟩ := heffect.host
    · rw [hrest]
      exact List.subset_cons_self line rest
    · rw [hagain]
      exact List.Subset.refl _

/-- From a state whose lines are all admitted a step answers a next state (R53, R86). -/
theorem step_admitted {s : State} (h : s.hostAdmitted) : ∃ t, step s = .next t := by
  by_cases due : completionDue s = true
  · exact ⟨complete s, step_due due⟩
  · rw [Bool.not_eq_true] at due
    cases hhost : s.host with
    | nil => exact ⟨s, step_idle due hhost⟩
    | cons line rest =>
      rw [step_line due hhost]
      exact hostMove_admitted line _ (h line (hhost ▸ List.mem_cons_self))

/-- Every step keeps the host admitted. -/
theorem step_keeps_hostAdmitted {s t : State} (hs : s.hostAdmitted) (h : step s = .next t) : t.hostAdmitted :=
  fun line hline => hs line (step_host_subset h hline)

/-- Settles O52, by induction on the number of steps. -/
theorem admittedHostIsNeverStopped : Obligations.AdmittedHostIsNeverStopped := by
  intro s k hs
  induction k generalizing s with
  | zero => exact ⟨s, rfl, hs⟩
  | succ k ih =>
    obtain ⟨t, ht⟩ := step_admitted hs
    rw [run_succ k ht]
    exact ih t (step_keeps_hostAdmitted hs ht)

/-! ### The invariant of R36 -/

/-- With no job pending the invariant asks for a legal capacity alone (R7). -/
theorem inv_of_idle {s t : State} (hs : s.Inv) (hcap : t.gcdBuf.length = s.gcdBuf.length) (idle : t.pend = none) :
    t.Inv := by
  obtain ⟨hlegal, -, -⟩ := hs
  rw [pNMax_eq, ← hcap] at hlegal
  exact ⟨hlegal, by simp [idle], by simp [idle]⟩

/-- The invariant speaks of the capacity, ERRCODE and the pending job only. -/
theorem inv_congr {s t : State} (hs : s.Inv) (hcap : t.gcdBuf.length = s.gcdBuf.length) (he : t.errcode = s.errcode)
    (hp : t.pend = s.pend) : t.Inv := by
  simpa [State.Inv, hcap, he, hp] using hs

/-- The effect of a line keeps the invariant: the one that starts a job leaves ERRCODE clear (R36) and a job within the
capacity (R140). -/
theorem LineEffect.keeps_inv {line : HostLine} {s t : State} (hs : s.Inv) (h : LineEffect line s t) : t.Inv := by
  cases h with
  | read | pollEnds | pollGoesOn => exact inv_congr hs rfl rfl rfl
  | store off v =>
    obtain ⟨he, -, hp, -, -, -, hcap⟩ := writeRegister_frame s v (regAt s.gcdBuf.length off)
    exact inv_congr hs hcap he hp
  | discard => exact inv_congr hs rfl rfl rfl
  | record v code idle => exact inv_of_idle hs rfl idle
  | start v i job idle hdecode hjob hwf =>
    obtain ⟨hlegal, -, -⟩ := hs
    have hcap : (startJob job (clearOverrun s)).pNMax = s.pNMax := by simp
    refine ⟨hcap ▸ hlegal, fun _ => startJob_errcode _ _, fun pending hpend => ?_⟩
    obtain rfl : job = pending := by simpa using hpend
    exact hcap ▸ hwf
  | reset => exact inv_of_idle hs (by simp) rfl

/-- Settles O42: a completion leaves no job, and the effect of a line keeps the invariant. -/
theorem stepKeepsTheInvariant : Obligations.StepKeepsTheInvariant := by
  intro s t hs h
  obtain ⟨-, rfl⟩ | rfl | ⟨line, rest, -, -, heffect⟩ := step_effect h
  · obtain ⟨idle, -⟩ := complete_frame s
    exact inv_of_idle hs (step_capacity h) idle
  · exact hs
  · have hs' : (takeLine rest s).Inv := inv_congr hs rfl rfl rfl
    exact heffect.keeps_inv hs'

/-! ### The status fields -/

/-- ERRCODE changes only where an idle block takes a word, or at reset (R24, R190). -/
theorem LineEffect.of_errcode_ne {line : HostLine} {s t : State} (h : LineEffect line s t)
    (hne : t.errcode ≠ s.errcode) : line = .reset ∨ (s.pend = none ∧ ∃ v, line = .wr 0x000 v) := by
  cases h with
  | store off v =>
    obtain ⟨he, -⟩ := writeRegister_frame s v (regAt s.gcdBuf.length off)
    exact absurd he hne
  | record v code idle => exact .inr ⟨idle, v, rfl⟩
  | start v i job idle => exact .inr ⟨idle, v, rfl⟩
  | reset => exact .inl rfl
  | _ => exact absurd rfl hne

/-- OVERRUN changes only at a write to CMD, or at reset (R25). -/
theorem LineEffect.of_overrun_ne {line : HostLine} {s t : State} (h : LineEffect line s t)
    (hne : t.overrun ≠ s.overrun) : line = .reset ∨ ∃ v, line = .wr 0x000 v := by
  cases h with
  | store off v =>
    obtain ⟨-, ho, -⟩ := writeRegister_frame s v (regAt s.gcdBuf.length off)
    exact absurd ho hne
  | discard v => exact .inr ⟨v, rfl⟩
  | record v => exact .inr ⟨v, rfl⟩
  | start v => exact .inr ⟨v, rfl⟩
  | reset => exact .inl rfl
  | _ => exact absurd rfl hne

/-- Settles O48: a completion changes neither field, and the lines that do are those of the two lemmas above. -/
theorem onlyCommandsAndResetChangeTheStatus : Obligations.OnlyCommandsAndResetChangeTheStatus := by
  intro s t h
  obtain ⟨-, rfl⟩ | rfl | ⟨line, rest, -, hhost, heffect⟩ := step_effect h
  · obtain ⟨-, he, ho, -⟩ := complete_frame s
    exact ⟨fun hne => absurd he hne, fun hne => absurd ho hne⟩
  · exact ⟨fun hne => absurd rfl hne, fun hne => absurd rfl hne⟩
  · constructor
    · intro hne
      obtain rfl | ⟨idle, v, rfl⟩ := heffect.of_errcode_ne hne
      · exact .inl ⟨rest, hhost⟩
      · exact .inr ⟨idle, v, rest, hhost⟩
    · intro hne
      obtain rfl | ⟨v, rfl⟩ := heffect.of_overrun_ne hne
      · exact ⟨rest, .inl hhost⟩
      · exact ⟨rest, .inr ⟨v, hhost⟩⟩

/-! ### The pending job -/

/-- On an idle block only an accepted job command makes a job pending (R22). -/
theorem LineEffect.starts {line : HostLine} {s t : State} (h : LineEffect line s t) (idle : s.pend = none)
    (busy : t.pend ≠ none) :
    t.errcode = .none ∧ ∃ v i, line = .wr 0x000 v ∧ decode v = .command i ∧ i ≠ .nop := by
  cases h with
  | store off v =>
    obtain ⟨-, -, hp, -⟩ := writeRegister_frame s v (regAt s.gcdBuf.length off)
    exact absurd (hp.trans idle) busy
  | start v i job _ hdecode hjob => exact ⟨rfl, v, i, rfl, hdecode, hjob⟩
  | reset => exact absurd rfl busy
  | _ => exact absurd idle busy

/-- With a job pending a line but reset leaves the job, its latency and the result registers alone (R66, R172). -/
theorem LineEffect.busy_frame {line : HostLine} {s t : State} (h : LineEffect line s t) (busy : s.pend ≠ none) :
    (line = .reset ∧ t.pend = none) ∨ (t.pend = s.pend ∧ t.latency = s.latency ∧ s.SameResults t) := by
  cases h with
  | store off v =>
    obtain ⟨-, -, hp, hresults, -, hlatency, -⟩ := writeRegister_frame s v (regAt s.gcdBuf.length off)
    exact .inr ⟨hp, hlatency, hresults⟩
  | record v code idle => exact absurd idle busy
  | start v i job idle => exact absurd idle busy
  | reset => exact .inl ⟨rfl, rfl⟩
  | _ => exact .inr ⟨rfl, rfl, rfl, rfl, rfl⟩

/-- Settles O49: a job starts by the effect of a line, and ends by a due completion or by reset. -/
theorem jobsStartAndEndAsTheRulesSay : Obligations.JobsStartAndEndAsTheRulesSay := by
  intro s t h
  obtain ⟨due, rfl⟩ | rfl | ⟨line, rest, -, hhost, heffect⟩ := step_effect h
  · obtain ⟨gone, -⟩ := complete_frame s
    exact ⟨fun _ busy => absurd gone busy, fun _ => .inr ⟨gone, .inl due⟩⟩
  · exact ⟨fun idle busy => absurd idle busy, fun _ => .inl rfl⟩
  · constructor
    · intro idle busy
      obtain ⟨he, v, i, rfl, hdecode, hjob⟩ := heffect.starts idle busy
      exact ⟨he, v, rest, i, hhost, hdecode, hjob⟩
    · intro busy
      obtain ⟨rfl, gone⟩ | ⟨hp, -⟩ := heffect.busy_frame busy
      · exact .inr ⟨gone, .inr ⟨rest, hhost⟩⟩
      · exact .inl hp

/-! ### The result and the operand registers -/

/-- No line but reset reaches a result register (R30, R31). -/
theorem LineEffect.results {line : HostLine} {s t : State} (h : LineEffect line s t) :
    line = .reset ∨ s.SameResults t := by
  cases h with
  | store off v =>
    obtain ⟨-, -, -, hresults, -⟩ := writeRegister_frame s v (regAt s.gcdBuf.length off)
    exact .inr hresults
  | start => exact .inr (by simp [State.SameResults])
  | reset => exact .inl rfl
  | _ => exact .inr ⟨rfl, rfl, rfl⟩

/-- No line but reset and a write to another register than CMD reaches an operand register (R149). -/
theorem LineEffect.operands {line : HostLine} {s t : State} (h : LineEffect line s t) :
    line = .reset ∨ (∃ off v, off ≠ 0x000 ∧ line = .wr off v) ∨ s.SameOperands t := by
  cases h with
  | store off v hcmd => exact .inr (.inl ⟨off, v, hcmd, rfl⟩)
  | start => exact .inr (.inr (by simp [State.SameOperands]))
  | reset => exact .inl rfl
  | _ => exact .inr (.inr ⟨rfl, rfl, rfl, rfl⟩)

/-- A completion changes ENC_OUT only where an ENC job is pending, and GCD_RES only where a GCD job is (R112, R142). -/
theorem complete_results (s : State) :
    ((complete s).encOutHi ++ (complete s).encOutLo ≠ s.encOutHi ++ s.encOutLo → ∃ w, s.pend = some (.enc w)) ∧
    ((complete s).gcdRes ≠ s.gcdRes → ∃ job, s.pend = some job ∧ job.isGcd = true) := by
  obtain ⟨-, hc⟩ | ⟨w, hp, hc⟩ | ⟨job, hp, hgcd, hc⟩ := complete_cases s <;> rw [hc]
  · exact ⟨fun hne => absurd rfl hne, fun hne => absurd rfl hne⟩
  · exact ⟨fun _ => ⟨w, hp⟩, fun hne => absurd rfl hne⟩
  · exact ⟨fun hne => absurd rfl hne, fun _ => ⟨job, hp, hgcd⟩⟩

/-- Settles O50: a completion writes the result registers of its unit alone, and a line none but by reset. -/
theorem registersChangeOnlyAsTheRulesSay : Obligations.RegistersChangeOnlyAsTheRulesSay := by
  intro s t h
  obtain ⟨due, rfl⟩ | rfl | ⟨line, rest, -, hhost, heffect⟩ := step_effect h
  · obtain ⟨hEnc, hGcd⟩ := complete_results s
    obtain ⟨-, -, -, hoperands, -⟩ := complete_frame s
    exact ⟨fun hne => .inr ⟨due, hEnc hne⟩, fun hne => .inr ⟨due, hGcd hne⟩, fun hne => absurd hoperands hne⟩
  · exact ⟨fun hne => absurd rfl hne, fun hne => absurd rfl hne, fun hne => absurd ⟨rfl, rfl, rfl, rfl⟩ hne⟩
  · refine ⟨fun hne => ?encOut, fun hne => ?gcdRes, fun hne => ?operands⟩
    case encOut =>
      obtain rfl | ⟨hlo, hhi, -⟩ := heffect.results
      · exact .inl ⟨rest, hhost⟩
      · exact absurd (by rw [hlo, hhi]; rfl) hne
    case gcdRes =>
      obtain rfl | ⟨-, -, hres⟩ := heffect.results
      · exact .inl ⟨rest, hhost⟩
      · exact absurd hres hne
    case operands =>
      obtain rfl | ⟨off, v, hcmd, rfl⟩ | hsame := heffect.operands
      · exact ⟨rest, .inl hhost⟩
      · exact ⟨rest, .inr ⟨off, v, hcmd, hhost⟩⟩
      · exact absurd hsame hne

end Sys2Proof.Machine
end

section
/-! PROOFS. The encoder's algorithm (spec/40_encoder.md R105): what the normalisation loops, the fraction and the digits of a
finite word come to, and with it the closed form of ENCODE (R114), the loops' bounds (R108, R116) and the sign (R117). -/

namespace Sys2Proof.Machine

/-! ### The scale (R113) -/

/-- The number 1 of the scale, as a product of two powers of two. -/
theorem scaledOne_eq_mul {a b : Nat} (h : a + b = 1074) : scaledOne = 2 ^ a * 2 ^ b :=
  calc scaledOne
    _ = 2 ^ (a + b) := congrArg (2 ^ ·) h.symm
    _ = 2 ^ a * 2 ^ b := pow_add 2 a b

/-- The exponent of `digitUnit`; irreducible, so that no proof computes the power. -/
@[irreducible] def digitExponent : Nat := 1022

theorem digitExponent_eq : digitExponent = 1022 := by rw [digitExponent]

/-- The 52 digits of a fraction and the weight of the last of them make up the scale. -/
theorem digits_add_digitExponent : 52 + digitExponent = 1074 := by rw [digitExponent_eq]

/-- The weight of a word's last fraction digit in the scale of the encoder: 2^(-52) scaled by 2^1074. -/
def digitUnit : Nat := 2 ^ digitExponent

theorem digitUnit_pos : 0 < digitUnit := Nat.two_pow_pos digitExponent

theorem scaledOne_eq : scaledOne = 2 ^ 52 * digitUnit := scaledOne_eq_mul digits_add_digitExponent

/-- From the exponent 0 upward a significand is scaled beyond its digits' unit ... -/
theorem two_pow_eq_digitUnit_mul {E : Nat} (h : 1023 ≤ E) : 2 ^ (E - 1) = digitUnit * 2 ^ (E - 1023) := by
  have hexp : E - 1 = digitExponent + (E - 1023) := by rw [digitExponent_eq]; omega
  exact (congrArg (2 ^ ·) hexp).trans (pow_add 2 _ _)

/-- ... and below the exponent 0 short of it. -/
theorem digitUnit_eq_two_pow_mul {E : Nat} (hlow : 1 ≤ E) (hhigh : E ≤ 1023) :
    digitUnit = 2 ^ (E - 1) * 2 ^ (1023 - E) := by
  have hexp : digitExponent = E - 1 + (1023 - E) := by rw [digitExponent_eq]; omega
  exact (congrArg (2 ^ ·) hexp).trans (pow_add 2 _ _)

/-! ### The normalisation loops (R106, R107) -/

/-- Below 2 there is no halving, on any fuel. -/
theorem normaliseUp_of_lt {m : Nat} (hm : m < 2 * scaledOne) (fuel : Nat) (e : Int) :
    normaliseUp fuel m e = (m, e) := by
  cases fuel with
  | zero => rfl
  | succ fuel => rw [normaliseUp, if_neg (Nat.not_le.mpr hm)]

/-- `k` doublings of a number in [1, 2) are undone in `k` halvings. -/
theorem normaliseUp_mul_two_pow {n : Nat} (hlow : scaledOne ≤ n) (hhigh : n < 2 * scaledOne) {k fuel : Nat}
    (hfuel : k ≤ fuel) (e : Int) : normaliseUp fuel (n * 2 ^ k) e = (n, e + k) := by
  induction k generalizing fuel e with
  | zero => simpa using normaliseUp_of_lt hhigh fuel e
  | succ k ih =>
    obtain _ | fuel := fuel
    · omega
    · have hone : 1 ≤ 2 ^ k := Nat.one_le_two_pow
      have hdouble : n * 2 ^ (k + 1) = 2 * (n * 2 ^ k) := by ring
      have htwo : 2 * scaledOne ≤ n * 2 ^ (k + 1) := by
        rw [hdouble]
        exact Nat.mul_le_mul_left 2 (hlow.trans (Nat.le_mul_of_pos_right n hone))
      have hhalf : n * 2 ^ (k + 1) / 2 = n * 2 ^ k := by omega
      rw [normaliseUp, if_pos htwo, hhalf, ih (by omega)]
      simp only [Nat.cast_add, Nat.cast_one, Prod.mk.injEq, true_and]
      omega

/-- At 1 or above there is no doubling, on any fuel. -/
theorem normaliseDown_of_le {m : Nat} (hm : scaledOne ≤ m) (fuel : Nat) (e : Int) :
    normaliseDown fuel m e = (m, e, false) := by
  cases fuel with
  | zero => rfl
  | succ fuel => rw [normaliseDown, if_neg (Nat.not_lt.mpr hm)]

/-- A number that `k` doublings bring into [1, 2) is doubled `k` times, the guard not firing when the exponent stays at
-1022 or above. -/
theorem normaliseDown_mul_two_pow {n k fuel : Nat} (hlow : scaledOne ≤ n * 2 ^ k) (hhigh : n * 2 ^ k < 2 * scaledOne)
    (hfuel : k ≤ fuel) {e : Int} (he : -1022 ≤ e - k) : normaliseDown fuel n e = (n * 2 ^ k, e - k, false) := by
  induction k generalizing n fuel e with
  | zero => simpa using normaliseDown_of_le (by simpa using hlow) fuel e
  | succ k ih =>
    obtain _ | fuel := fuel
    · omega
    · have hdouble : n * 2 ^ (k + 1) = n * 2 * 2 ^ k := by ring
      have hlt : n < scaledOne := by
        have hle : n * 2 ≤ n * 2 * 2 ^ k := Nat.le_mul_of_pos_right _ Nat.one_le_two_pow
        omega
      have hguard : e - 1 ≠ -1023 := by omega
      rw [hdouble] at hlow hhigh ⊢
      rw [normaliseDown, if_pos hlt, if_neg hguard, ih hlow hhigh (by omega) (by omega)]
      simp only [Nat.cast_add, Nat.cast_one, Prod.mk.injEq, true_and, and_true]
      omega

/-- A number still below 1 after the `k` doublings that bring the exponent to -1022 fires the guard, whose doubling is
undone by its halving (R107). -/
theorem normaliseDown_guard {n k fuel : Nat} (hlt : n * 2 ^ k < scaledOne) (hfuel : k < fuel) {e : Int}
    (he : e = k - 1022) : normaliseDown fuel n e = (n * 2 ^ k, -1023, true) := by
  induction k generalizing n fuel e with
  | zero =>
    obtain _ | fuel := fuel
    · omega
    · rw [pow_zero, mul_one] at hlt ⊢
      simp [normaliseDown, hlt, he]
  | succ k ih =>
    obtain _ | fuel := fuel
    · omega
    · have hdouble : n * 2 ^ (k + 1) = n * 2 * 2 ^ k := by ring
      have hn : n < scaledOne := (Nat.le_mul_of_pos_right n (Nat.two_pow_pos (k + 1))).trans_lt hlt
      have hguard : e - 1 ≠ -1023 := by omega
      rw [hdouble] at hlt ⊢
      rw [normaliseDown, if_pos hn, if_neg hguard, ih hlt (by omega) (by omega)]

/-- Both loops on a magnitude end with `d`, on any fuel of at least the 1023 passes of R116. -/
def NormalisesTo (m : Nat) (d : Nat × Int × Bool) : Prop :=
  ∃ up, (∀ fuel, 1023 ≤ fuel → normaliseUp fuel m 0 = up) ∧
    ∀ fuel, 1023 ≤ fuel → normaliseDown fuel up.1 up.2 = d

/-- The magnitude of a NORMAL word is normalised to its significand in [1, 2), its exponent unbiased (R106, R107). -/
theorem normal_normalisesTo {F E : Nat} (hF : F < 2 ^ 52) (hlow : 1 ≤ E) (hhigh : E ≤ 2046) :
    NormalisesTo ((2 ^ 52 + F) * 2 ^ (E - 1)) ((2 ^ 52 + F) * digitUnit, E - 1023, false) := by
  have hge : scaledOne ≤ (2 ^ 52 + F) * digitUnit := scaledOne_eq ▸ Nat.mul_le_mul_right _ (Nat.le_add_right _ F)
  have hlt : (2 ^ 52 + F) * digitUnit < 2 * scaledOne := by
    rw [scaledOne_eq, ← mul_assoc]
    exact Nat.mul_lt_mul_of_pos_right (by omega) digitUnit_pos
  by_cases habove : 1023 ≤ E
  · refine ⟨((2 ^ 52 + F) * digitUnit, E - 1023), fun fuel hfuel => ?_, fun fuel _ => normaliseDown_of_le hge fuel _⟩
    have hsplit : (2 ^ 52 + F) * 2 ^ (E - 1) = (2 ^ 52 + F) * digitUnit * 2 ^ (E - 1023) := by
      rw [two_pow_eq_digitUnit_mul habove, mul_assoc]
    rw [hsplit, normaliseUp_mul_two_pow hge hlt (by omega)]
    simp only [Prod.mk.injEq, true_and]
    omega
  · have hsplit : (2 ^ 52 + F) * digitUnit = (2 ^ 52 + F) * 2 ^ (E - 1) * 2 ^ (1023 - E) := by
      rw [digitUnit_eq_two_pow_mul hlow (by omega), mul_assoc]
    rw [hsplit] at hge hlt ⊢
    refine ⟨((2 ^ 52 + F) * 2 ^ (E - 1), 0), fun fuel _ => normaliseUp_of_lt ?_ fuel 0, fun fuel hfuel => ?_⟩
    · exact (Nat.le_mul_of_pos_right _ (Nat.two_pow_pos _)).trans_lt hlt
    · rw [normaliseDown_mul_two_pow hge hlt (by omega) (by omega)]
      simp only [Prod.mk.injEq, true_and, and_true]
      omega

/-- The magnitude of a SUBNORMAL word reaches the guard with its fraction (R107, R108). -/
theorem subnormal_normalisesTo {F : Nat} (hF : F < 2 ^ 52) : NormalisesTo F (F * digitUnit, -1023, true) := by
  have hlt : F * digitUnit < scaledOne := scaledOne_eq ▸ Nat.mul_lt_mul_of_pos_right hF digitUnit_pos
  refine ⟨(F, 0), fun fuel _ => normaliseUp_of_lt ?_ fuel 0, fun fuel hfuel =>
    normaliseDown_guard hlt (by rw [digitExponent_eq]; exact hfuel) (by rw [digitExponent_eq]; rfl)⟩
  have hle : F ≤ F * digitUnit := Nat.le_mul_of_pos_right _ digitUnit_pos
  omega

/-- What a finite non-zero word is normalised to: the exponent is its biased exponent less 1023, the fraction selected is its
fraction, and the guard has fired exactly where the exponent ends at -1023. -/
theorem finite_normalisesTo {w : DWord} (h : classify w = .normal ∨ classify w = .subnormal) :
    ∃ m e sub, NormalisesTo (scaledMagnitude w) (m, e, sub) ∧ e = (exponentField w).toNat - 1023 ∧
      selectFraction m sub = (fractionField w).toNat * digitUnit ∧ (e = -1023 ↔ sub = true) := by
  have hF : (fractionField w).toNat < 2 ^ 52 := (fractionField w).isLt
  obtain h | h := h
  · obtain ⟨hlow, hhigh⟩ := (classify_eq_iff_row w .normal).mp h
    have hne : exponentField w ≠ 0 := ((exponentField_range_iff w).mp ⟨hlow, hhigh⟩).1
    have hmag : scaledMagnitude w = (2 ^ 52 + (fractionField w).toNat) * 2 ^ ((exponentField w).toNat - 1) := if_neg hne
    refine ⟨_, _, _, hmag ▸ normal_normalisesTo hF hlow hhigh, rfl, ?_, ?_⟩
    · have hsub : (2 ^ 52 + (fractionField w).toNat) * digitUnit - scaledOne = (fractionField w).toNat * digitUnit := by
        rw [scaledOne_eq, add_mul, Nat.add_sub_cancel_left]
      rw [selectFraction, if_neg Bool.false_ne_true, hsub, ite_eq_right_iff]
      intro heq
      rw [← hsub, heq, Nat.sub_self]
    · simp only [Bool.false_eq_true, iff_false]
      omega
  · obtain ⟨hexp, -⟩ := (classify_eq_iff_row w .subnormal).mp h
    have hmag : scaledMagnitude w = (fractionField w).toNat := if_pos hexp
    refine ⟨(fractionField w).toNat * digitUnit, -1023, true, ?_, by rw [hexp]; rfl, rfl, by simp⟩
    rw [hmag]
    exact subnormal_normalisesTo hF

/-! ### The digits (R110, R111) -/

/-- A leading digit counts for the power of two of the digits behind it. -/
theorem digitsValue_cons (d : Bool) (b : List Bool) :
    digitsValue (d :: b) = d.toNat * 2 ^ b.length + digitsValue b := by
  have from_head (n : Nat) (b : List Bool) :
      b.foldl (fun n d => 2 * n + d.toNat) n = n * 2 ^ b.length + digitsValue b := by
    induction b generalizing n with
    | nil => simp [digitsValue]
    | cons d b ih =>
      rw [digitsValue, List.foldl_cons, List.foldl_cons, ih, ih (2 * 0 + d.toNat), List.length_cons]
      ring
  rw [digitsValue, List.foldl_cons, from_head]
  simp

/-- Padding shifts the value of the digits to the left (R111). -/
theorem digitsValue_padDigits (b : List Bool) : digitsValue (padDigits b) = digitsValue b * 2 ^ (52 - b.length) := by
  rw [padDigits]
  generalize 52 - b.length = k
  induction b with
  | nil =>
    induction k with
    | zero => rfl
    | succ k ih => simpa [List.replicate_succ, digitsValue_cons, digitsValue] using ih
  | cons d b ih =>
    rw [List.cons_append, digitsValue_cons, digitsValue_cons, ih, List.length_append, List.length_replicate]
    ring

/-- The next digit of a fraction of `room + 1` digits, and the fraction of `room` digits that is left. -/
theorem next_digit {room k : Nat} (G : Nat) (hk : room + 1 + k = 1074) :
    (scaledOne ≤ G * 2 ^ k * 2 ↔ 2 ^ room ≤ G) ∧ G * 2 ^ k * 2 = G * 2 ^ (k + 1) ∧
    G * 2 ^ k * 2 - scaledOne = (G - 2 ^ room) * 2 ^ (k + 1) := by
  have hone : scaledOne = 2 ^ room * 2 ^ (k + 1) := scaledOne_eq_mul (by omega)
  rw [mul_assoc, ← pow_succ, hone]
  exact ⟨Nat.mul_le_mul_right_iff (Nat.two_pow_pos _), rfl, (Nat.sub_mul _ _ _).symm⟩

/-- Step 6 on a fraction of at most `room` digits, `G / 2^room`: it gives them all but the zeros at the end. -/
theorem extractDigits_value {room k G : Nat} (hk : room + k = 1074) (hG : G < 2 ^ room) :
    (extractDigits room (G * 2 ^ k)).length ≤ room ∧
    digitsValue (extractDigits room (G * 2 ^ k)) * 2 ^ (room - (extractDigits room (G * 2 ^ k)).length) = G := by
  induction room generalizing k G with
  | zero =>
    obtain rfl : G = 0 := by omega
    exact ⟨le_rfl, rfl⟩
  | succ room ih =>
    obtain ⟨hdigit, hzero, hone⟩ := next_digit G hk
    rw [extractDigits]
    split_ifs with hf htrue
    · obtain rfl : G = 0 := by simpa using hf
      simp [digitsValue]
    · have hle : 2 ^ room ≤ G := hdigit.mp htrue
      obtain ⟨hlength, hvalue⟩ := ih (k := k + 1) (G := G - 2 ^ room) (by omega) (by rw [pow_succ] at hG; omega)
      rw [hone, List.length_cons, digitsValue_cons, Bool.toNat_true, Nat.add_sub_add_right, add_mul, one_mul, hvalue,
        ← pow_add, Nat.add_sub_cancel' hlength]
      exact ⟨Nat.succ_le_succ hlength, Nat.add_sub_cancel' hle⟩
    · obtain ⟨hlength, hvalue⟩ := ih (k := k + 1) (by omega) (Nat.lt_of_not_le (hdigit.not.mp htrue))
      rw [hzero, List.length_cons, digitsValue_cons, Bool.toNat_false, Nat.add_sub_add_right, zero_mul, zero_add]
      exact ⟨Nat.succ_le_succ hlength, hvalue⟩

/-- More room gives no more digits: after `room` of them nothing of the fraction is left. -/
theorem extractDigits_more {room k G : Nat} (hk : room + k = 1074) (hG : G < 2 ^ room) (more : Nat) :
    extractDigits (room + more) (G * 2 ^ k) = extractDigits room (G * 2 ^ k) := by
  induction room generalizing k G with
  | zero =>
    obtain rfl : G = 0 := by omega
    cases more <;> simp [extractDigits]
  | succ room ih =>
    obtain ⟨hdigit, hzero, hone⟩ := next_digit G hk
    rw [Nat.add_right_comm, extractDigits, extractDigits]
    split_ifs with hf htrue
    · rfl
    · rw [hone, ih (by omega) (by rw [pow_succ] at hG; omega)]
    · rw [hzero, ih (by omega) (Nat.lt_of_not_le (hdigit.not.mp htrue))]

/-- Steps 5 to 7 on a fraction of 52 digits give back the fraction. -/
theorem digitsValue_of_fraction {F : Nat} (hF : F < 2 ^ 52) :
    digitsValue (padDigits (extractDigits 52 (F * digitUnit))) = F := by
  obtain ⟨-, hvalue⟩ := extractDigits_value digits_add_digitExponent hF
  rw [digitsValue_padDigits]
  exact hvalue

/-! ### The sign (R105) -/

theorem natAbs_scaledValue (w : DWord) : (scaledValue w).natAbs = scaledMagnitude w := by
  rw [scaledValue]
  split_ifs <;> simp

/-- A finite non-zero word has a non-zero value. -/
theorem scaledMagnitude_pos {w : DWord} (h : classify w = .normal ∨ classify w = .subnormal) : 0 < scaledMagnitude w := by
  rw [scaledMagnitude]
  split_ifs with hexp
  · obtain h | h := h
    · obtain ⟨hlow, -⟩ := (classify_eq_iff_row w .normal).mp h
      rw [hexp] at hlow
      cases hlow
    · obtain ⟨-, hfrac⟩ := (classify_eq_iff_row w .subnormal).mp h
      exact Nat.pos_of_ne_zero fun hzero => hfrac (BitVec.eq_of_toNat_eq hzero)
  · exact Nat.mul_pos (by omega) (Nat.two_pow_pos _)

/-- The sign of the value of a finite non-zero word is its sign bit. -/
theorem sign_of_scaledValue {w : DWord} (h : classify w = .normal ∨ classify w = .subnormal) :
    (if scaledValue w < 0 then (1 : BitVec 1) else 0) = signField w := by
  have hpos : 0 < scaledMagnitude w := scaledMagnitude_pos h
  obtain hsign | hsign := BitVec.eq_zero_or_eq_one (signField w)
  · have hval : scaledValue w = scaledMagnitude w := if_pos hsign
    rw [if_neg (by omega), hsign]
    rfl
  · have hval : scaledValue w = -scaledMagnitude w := if_neg (by rw [hsign]; decide)
    rw [if_pos (by omega), hsign]
    rfl

/-! ### The closed form (R114) -/

/-- Sign, exponent and fraction are all of a word (R100). -/
theorem floatFields_append (w : DWord) : signField w ++ exponentField w ++ fractionField w = w := by
  have high : signField w ++ exponentField w = w.extractLsb' 52 12 := BitVec.extractLsb'_append_extractLsb'_eq_extractLsb' rfl
  have whole : w.extractLsb' 52 12 ++ fractionField w = w.extractLsb' 0 64 :=
    BitVec.extractLsb'_append_extractLsb'_eq_extractLsb' rfl
  rw [high, whole, BitVec.extractLsb'_eq_self]

/-- ENCODE_FINITE gives back every finite non-zero word: the sign, the exponent and the fraction of its value are its
fields. -/
theorem encodeFinite_eq_self {w : DWord} (h : classify w = .normal ∨ classify w = .subnormal) : encodeFinite w = w := by
  obtain ⟨m, e, sub, ⟨up, hup, hdown⟩, he, hfrac, -⟩ := finite_normalisesTo h
  have hexp : BitVec.ofInt 11 (e + 1023) = exponentField w := by
    rw [he, Int.sub_add_cancel, BitVec.ofInt_natCast, BitVec.ofNat_toNat, BitVec.setWidth_eq]
  have hdigits : BitVec.ofNat 52 (digitsValue (padDigits (extractDigits 52 (selectFraction m sub)))) =
      fractionField w := by
    rw [hfrac, digitsValue_of_fraction (fractionField w).isLt, BitVec.ofNat_toNat, BitVec.setWidth_eq]
  simp only [encodeFinite, natAbs_scaledValue, hup 1023 le_rfl, hdown 1023 le_rfl]
  rw [sign_of_scaledValue h, hexp, hdigits, floatFields_append]

/-- A word is all of its three fields. -/
theorem eq_of_floatFields {w v : DWord} (hsign : signField w = signField v) (hexp : exponentField w = exponentField v)
    (hfrac : fractionField w = fractionField v) : w = v := by
  rw [← floatFields_append w, hsign, hexp, hfrac, floatFields_append]

/-- Settles O32, class by class: the special patterns that are no NaN are the words of their fields (R101), and
ENCODE_FINITE gives back the others. -/
theorem encodeHasTheClosedForm : Obligations.EncodeHasTheClosedForm := by
  intro w
  have row := classify_row w
  have unsigned (hbit : w.getLsbD 63 = false) : signField w = 0 := (signField_eq_zero_iff w).mpr hbit
  have signed (hbit : w.getLsbD 63 = true) : signField w = 1 := by rw [signField_eq_ofBool, hbit]; rfl
  unfold encodeFloat
  cases hclass : classify w <;> rw [hclass] at row <;> simp only [reduceCtorEq, reduceIte]
  case pzero =>
    obtain ⟨hexp, hfrac, hbit⟩ := row
    exact (eq_of_floatFields (unsigned hbit) hexp hfrac).symm
  case nzero =>
    obtain ⟨hexp, hfrac, hbit⟩ := row
    exact (eq_of_floatFields (signed hbit) hexp hfrac).symm
  case pinf =>
    obtain ⟨hexp, hfrac, hbit⟩ := row
    exact (eq_of_floatFields (unsigned hbit) hexp hfrac).symm
  case ninf =>
    obtain ⟨hexp, hfrac, hbit⟩ := row
    exact (eq_of_floatFields (signed hbit) hexp hfrac).symm
  case normal => exact encodeFinite_eq_self (.inl hclass)
  case subnormal => exact encodeFinite_eq_self (.inr hclass)

/-- Settles O31: the branches of ENCODE. -/
theorem specialPatternsAreFixed : Obligations.SpecialPatternsAreFixed := by
  intro w
  refine ⟨?_, ?_, ?_, ?_, ?_, ?finite⟩
  case finite => rintro (h | h) <;> rw [encodeFloat, h]
  all_goals
    intro h
    rw [encodeFloat, h]

/-- Settles O33: on any fuel of at least the bounds the loops end as finite_normalisesTo says, with the exponent of the
word's field. -/
theorem encoderLoopsEndWithinTheirBounds : Obligations.EncoderLoopsEndWithinTheirBounds := by
  intro w more h
  obtain ⟨m, e, sub, ⟨up, hup, hdown⟩, he, hfrac, hguard⟩ := finite_normalisesTo h
  have hF : (fractionField w).toNat < 2 ^ 52 := (fractionField w).isLt
  have hrange : (exponentField w).toNat ≤ 2046 := by
    obtain h | h := h
    · exact ((classify_eq_iff_row w .normal).mp h).2
    · obtain ⟨hexp, -⟩ := (classify_eq_iff_row w .subnormal).mp h
      simp [hexp]
  simp only [natAbs_scaledValue, hup 1023 le_rfl, hdown 1023 le_rfl, hup (1023 + more) (by omega),
    hdown (1023 + more) (by omega), hfrac, true_and]
  exact ⟨extractDigits_more digits_add_digitExponent hF more, by omega, by omega, hguard⟩

/-! ### The BitString (R111) and the sign (R117) -/

/-- Settles O35: the BitString is written bit by bit. -/
theorem bitStringIsMostSignificantFirst : Obligations.BitStringIsMostSignificantFirst := by
  intro r
  refine ⟨by rw [bitString, List.length_map, List.length_range], fun k hk => ?_⟩
  rw [bitString, List.getElem?_map, List.getElem?_range hk, Option.map_some]

/-- The first character of the BitString is bit 63, and the others are the bits below. -/
theorem bitString_eq_cons (r : DWord) :
    bitString r = (if r.getLsbD 63 then '1' else '0') ::
      (List.range 63).map fun k => if r.getLsbD (62 - k) then '1' else '0' := by
  rw [bitString, List.range_succ_eq_map, List.map_cons, List.map_map]
  rfl

/-- The word with its sign bit flipped. -/
def flipSign (w : DWord) : DWord := w ^^^ 0x8000_0000_0000_0000

/-- Flipping the sign flips bit 63 alone. -/
theorem flipSign_getLsbD (w : DWord) (i : Nat) : (flipSign w).getLsbD i = (w.getLsbD i ^^ decide (i = 63)) := by
  have hmask : (0x8000_0000_0000_0000 : DWord) = BitVec.twoPow 64 63 := by decide
  rw [flipSign, hmask, BitVec.getLsbD_xor, BitVec.getLsbD_twoPow]
  simp [eq_comm]

theorem exponentField_flipSign (w : DWord) : exponentField (flipSign w) = exponentField w := by
  ext i hi
  have hbit : 52 + i ≠ 63 := by omega
  simp [exponentField, flipSign_getLsbD, hbit]

theorem fractionField_flipSign (w : DWord) : fractionField (flipSign w) = fractionField w := by
  ext i hi
  have hbit : i ≠ 63 := by omega
  simp [fractionField, flipSign_getLsbD, hbit]

/-- The class NaN does not depend on the sign (R101). -/
theorem classify_flipSign_eq_nan_iff (w : DWord) : classify (flipSign w) = .nan ↔ classify w = .nan := by
  rw [classify_eq_iff_row, classify_eq_iff_row, FloatClass.Row, FloatClass.Row, exponentField_flipSign,
    fractionField_flipSign]

/-- The BitStrings of a word and of the word with its sign flipped differ in the first character alone. -/
theorem bitString_flipSign (r : DWord) :
    (bitString (flipSign r)).tail = (bitString r).tail ∧ (bitString (flipSign r)).head? ≠ (bitString r).head? := by
  rw [bitString_eq_cons, bitString_eq_cons]
  constructor
  · rw [List.tail_cons, List.tail_cons]
    refine List.map_congr_left fun k _ => ?_
    have hbit : 62 - k ≠ 63 := by omega
    simp [flipSign_getLsbD, hbit]
  · have hfirst : (flipSign r).getLsbD 63 = !r.getLsbD 63 := (flipSign_getLsbD r 63).trans (Bool.xor_true _)
    rw [hfirst, List.head?_cons, List.head?_cons]
    cases r.getLsbD 63 <;> decide

/-- Settles O34: by the closed form ENCODE is the word itself where it is no NaN, and one word for every NaN. -/
theorem signFlipChangesOnlyTheFirstCharacter : Obligations.SignFlipChangesOnlyTheFirstCharacter := by
  constructor
  · intro w hw
    have hself : encodeFloat w = w := (encodeHasTheClosedForm w).trans (if_neg hw)
    have hflip : encodeFloat (flipSign w) = flipSign w :=
      (encodeHasTheClosedForm _).trans (if_neg ((classify_flipSign_eq_nan_iff w).not.mpr hw))
    change encodeFloat (flipSign w) = flipSign (encodeFloat w) ∧
      (bitString (encodeFloat (flipSign w))).tail = _ ∧ (bitString (encodeFloat (flipSign w))).head? ≠ _
    rw [hflip, hself]
    exact ⟨rfl, bitString_flipSign w⟩
  · intro w v hw hv
    rw [encodeHasTheClosedForm w, encodeHasTheClosedForm v, if_pos hw, if_pos hv]

end Sys2Proof.Machine
end

section
/-! PROOFS. The exact value of a finite word (spec/40_encoder.md R102), from the integer in the scale 2^1074 that the encoder
computes with (R113). -/

namespace Sys2Proof.Machine

/-- The scaled value is the sign's factor times the scaled magnitude. -/
theorem scaledValue_eq_signFactor_mul (w : DWord) : (scaledValue w : ℚ) = signFactor w * scaledMagnitude w := by
  rw [scaledValue, signFactor]
  split_ifs <;> simp

/-- The magnitude of the exact value is the scaled magnitude, the scale taken off. -/
theorem abs_scaledValue_div (w : DWord) : |(scaledValue w : ℚ) / 2 ^ 1074| = (scaledMagnitude w : ℚ) / 2 ^ 1074 := by
  have hscale : |(2 : ℚ) ^ 1074| = 2 ^ 1074 := abs_of_pos (pow_pos two_pos 1074)
  rw [abs_div, hscale, ← natAbs_scaledValue, Nat.cast_natAbs, Int.cast_abs]

/-- A power of two with an integer exponent, brought to one with a natural exponent. -/
theorem two_zpow_mul_two_pow {e : ℤ} {n m : ℕ} (h : e + n = m) : (2 : ℚ) ^ e * 2 ^ n = 2 ^ m := by
  rw [← zpow_natCast 2 n, ← zpow_natCast 2 m, ← zpow_add₀ two_ne_zero, h]

/-- `|VALUE(w)|` of a NORMAL word (R102). -/
theorem normal_magnitude {w : DWord} (h : classify w = .normal) :
    (scaledMagnitude w : ℚ) / 2 ^ 1074 =
      (1 + ((fractionField w).toNat : ℚ) / 2 ^ 52) * (2 : ℚ) ^ (((exponentField w).toNat : ℤ) - 1023) := by
  obtain ⟨hlow, hhigh⟩ := (classify_eq_iff_row w .normal).mp h
  have hne : exponentField w ≠ 0 := ((exponentField_range_iff w).mp ⟨hlow, hhigh⟩).1
  have hmag : scaledMagnitude w = (2 ^ 52 + (fractionField w).toNat) * 2 ^ ((exponentField w).toNat - 1) := if_neg hne
  have hpow : (2 : ℚ) ^ (((exponentField w).toNat : ℤ) - 1023) * 2 ^ 1074 =
      2 ^ (52 + ((exponentField w).toNat - 1)) := two_zpow_mul_two_pow (by omega)
  rw [div_eq_iff (pow_ne_zero 1074 two_ne_zero), mul_assoc, hpow, hmag, pow_add]
  push_cast
  ring

/-- `|VALUE(w)|` of a SUBNORMAL word (R102). -/
theorem subnormal_magnitude {w : DWord} (h : classify w = .subnormal) :
    (scaledMagnitude w : ℚ) / 2 ^ 1074 = ((fractionField w).toNat : ℚ) / 2 ^ 52 * (2 : ℚ) ^ (-1022 : ℤ) := by
  obtain ⟨hexp, -⟩ := (classify_eq_iff_row w .subnormal).mp h
  have hmag : scaledMagnitude w = (fractionField w).toNat := if_pos hexp
  have hpow : (2 : ℚ) ^ (-1022 : ℤ) * 2 ^ 1074 = 2 ^ 52 := two_zpow_mul_two_pow (by norm_num)
  rw [div_eq_iff (pow_ne_zero 1074 two_ne_zero), mul_assoc, hpow, hmag, div_mul_cancel₀ _ (pow_ne_zero 52 two_ne_zero)]

/-- A fraction lies below 1. -/
theorem fraction_lt_one (w : DWord) : ((fractionField w).toNat : ℚ) / 2 ^ 52 < 1 := by
  rw [div_lt_one (pow_pos two_pos 52)]
  exact_mod_cast (fractionField w).isLt

/-- The range of a NORMAL word's magnitude: a significand in [1, 2) at an exponent from -1022 to 1023. -/
theorem normal_magnitude_range {w : DWord} (h : classify w = .normal) :
    (2 : ℚ) ^ (-1022 : ℤ) ≤ scaledMagnitude w / 2 ^ 1074 ∧ (scaledMagnitude w : ℚ) / 2 ^ 1074 < 2 ^ 1024 := by
  obtain ⟨hlow, hhigh⟩ := (classify_eq_iff_row w .normal).mp h
  have hpos : (0 : ℚ) ≤ ((fractionField w).toNat : ℚ) / 2 ^ 52 := by positivity
  have hlt : ((fractionField w).toNat : ℚ) / 2 ^ 52 < 1 := fraction_lt_one w
  rw [normal_magnitude h]
  constructor
  · calc (2 : ℚ) ^ (-1022 : ℤ)
      _ ≤ 2 ^ (((exponentField w).toNat : ℤ) - 1023) := zpow_le_zpow_right₀ one_le_two (by omega)
      _ ≤ _ := le_mul_of_one_le_left (zpow_nonneg zero_le_two _) (by linarith only [hpos])
  · have hexp : (2 : ℚ) ^ (((exponentField w).toNat : ℤ) - 1023) ≤ 2 ^ (1023 : ℤ) :=
      zpow_le_zpow_right₀ one_le_two (by omega)
    calc _ < 2 * (2 : ℚ) ^ (((exponentField w).toNat : ℤ) - 1023) :=
          mul_lt_mul_of_pos_right (by linarith only [hlt]) (zpow_pos two_pos _)
      _ ≤ 2 * 2 ^ (1023 : ℤ) := mul_le_mul_of_nonneg_left hexp zero_le_two
      _ = 2 ^ 1024 := by rw [mul_comm, ← two_zpow_mul_two_pow (e := 1023) (n := 1) rfl, pow_one]

/-- The range of a SUBNORMAL word's magnitude: a fraction in [2^(-52), 1) at the exponent -1022. -/
theorem subnormal_magnitude_range {w : DWord} (h : classify w = .subnormal) :
    (2 : ℚ) ^ (-1074 : ℤ) ≤ scaledMagnitude w / 2 ^ 1074 ∧
    (scaledMagnitude w : ℚ) / 2 ^ 1074 < (2 : ℚ) ^ (-1022 : ℤ) := by
  obtain ⟨-, hfrac⟩ := (classify_eq_iff_row w .subnormal).mp h
  have hone : (1 : ℚ) ≤ (fractionField w).toNat := by
    exact_mod_cast Nat.pos_of_ne_zero fun hzero => hfrac (BitVec.eq_of_toNat_eq hzero)
  have hunit : (0 : ℚ) < 2 ^ (-1022 : ℤ) := zpow_pos two_pos _
  rw [subnormal_magnitude h]
  constructor
  · calc (2 : ℚ) ^ (-1074 : ℤ)
      _ = 1 / 2 ^ 52 * 2 ^ (-1022 : ℤ) := by
        rw [div_mul_eq_mul_div, one_mul, eq_div_iff (pow_ne_zero 52 two_ne_zero), ← zpow_natCast 2 52,
          ← zpow_add₀ two_ne_zero]
        rfl
      _ ≤ _ := mul_le_mul_of_nonneg_right (div_le_div_of_nonneg_right hone (by positivity)) hunit.le
  · exact mul_lt_of_lt_one_left hunit (fraction_lt_one w)

/-- Settles O30: the two rows of R102, the sign taken off. -/
theorem scaledValueIsTheExactValue : Obligations.ScaledValueIsTheExactValue := by
  intro w
  have hvalue : (scaledValue w : ℚ) / 2 ^ 1074 = signFactor w * (scaledMagnitude w / 2 ^ 1074) := by
    rw [scaledValue_eq_signFactor_mul, mul_div_assoc]
  rw [abs_scaledValue_div, hvalue]
  constructor
  · intro h
    exact ⟨by rw [normal_magnitude h, mul_assoc], normal_magnitude_range h⟩
  · intro h
    exact ⟨by rw [subnormal_magnitude h, mul_assoc], subnormal_magnitude_range h⟩

end Sys2Proof.Machine
end

section
/-! PROOFS. The ranges of the result registers (spec/10_state.md R31, spec/40_encoder.md R114): what a completion writes lies
in them, and so every step keeps them. -/

namespace Sys2Proof.Machine

/-- The two halves of a 64-bit word make it up (R59). -/
theorem hiHalf_append_loHalf (w : DWord) : hiHalf w ++ loHalf w = w := by
  have whole : hiHalf w ++ loHalf w = w.extractLsb' 0 64 := BitVec.extractLsb'_append_extractLsb'_eq_extractLsb' rfl
  rw [whole, BitVec.extractLsb'_eq_self]

/-- ENCODE gives no NaN but the canonical one (R114). -/
theorem encodeFloat_nan {w : DWord} (h : classify (encodeFloat w) = .nan) :
    encodeFloat w = 0xFFF8_0000_0000_0000 := by
  have closed : encodeFloat w = if classify w = .nan then 0xFFF8_0000_0000_0000 else w := encodeHasTheClosedForm w
  split_ifs at closed with hnan
  · exact closed
  · rw [closed] at h
    exact absurd h hnan

/-- The ranges speak of the result registers alone. -/
theorem resultsInRange_congr {s t : State} (hs : s.ResultsInRange) (h : s.SameResults t) : t.ResultsInRange := by
  obtain ⟨hlo, hhi, hres⟩ := h
  simpa [State.ResultsInRange, hlo, hhi, hres] using hs

/-- A completion keeps the ranges, whatever job is pending: ENC_OUT takes a word of ENCODE, or GCD_RES a GCDRESULT. -/
theorem complete_keeps_resultsInRange {s : State} (hs : s.ResultsInRange) : (complete s).ResultsInRange := by
  obtain ⟨hEnc, hGcd⟩ := hs
  obtain ⟨-, hc⟩ | ⟨w, -, hc⟩ | ⟨job, -, -, hc⟩ := complete_cases s <;> rw [hc]
  · exact ⟨hEnc, hGcd⟩
  · refine ⟨?_, hGcd⟩
    rw [encOut_eq, hiHalf_append_loHalf]
    exact encodeFloat_nan
  · refine ⟨hEnc, ?_⟩
    rw [BitVec.toNat_ofNat]
    exact (Nat.mod_le _ _).trans (gcdResult_le job)

/-- A state with both result registers at 0 is in range. -/
theorem resultsInRange_of_zero {s : State} (hlo : s.encOutLo = 0) (hhi : s.encOutHi = 0) (hres : s.gcdRes = 0) :
    s.ResultsInRange :=
  resultsInRange_congr (s := State.reset) ⟨by decide, by decide⟩ ⟨hlo, hhi, hres⟩

/-- Settles O47: a completion keeps the ranges, reset writes zeros, and no other line reaches a result register. -/
theorem stepKeepsTheResultsInRange : Obligations.StepKeepsTheResultsInRange := by
  intro s t hs h
  obtain ⟨-, rfl⟩ | rfl | ⟨line, rest, -, -, heffect⟩ := step_effect h
  · exact complete_keeps_resultsInRange hs
  · exact hs
  · obtain rfl | hsame := heffect.results
    · cases heffect
      exact resultsInRange_of_zero rfl rfl rfl
    · exact resultsInRange_congr hs hsame

end Sys2Proof.Machine
end

section
/-! PROOFS. The GCD engine (spec/41_gcd.md): EUCLID, STEIN and REDUCE compute the greatest common divisor (R143, R144) within
their bounds (R148), and what follows for a job's result (R145, R146, R147). -/

namespace Sys2Proof.Machine

/-! ### EUCLID (R132) -/

/-- From positive numbers EUCLID's loop ends within `a + b - 2` passes, each of which keeps the gcd. -/
theorem euclidLoop_eq_gcd {fuel a b : Nat} (ha : 1 ≤ a) (hb : 1 ≤ b) (hfuel : a + b ≤ fuel + 2) :
    euclidLoop fuel a b = Nat.gcd a b := by
  induction fuel generalizing a b with
  | zero =>
    obtain ⟨rfl, rfl⟩ : a = 1 ∧ b = 1 := by omega
    rfl
  | succ fuel ih =>
    rw [euclidLoop]
    split_ifs with heq hlt
    · rw [heq, Nat.gcd_self]
    · rw [ih (by omega) hb (by omega), Nat.gcd_sub_self_left hlt.le]
    · rw [ih ha (by omega) (by omega), Nat.gcd_sub_self_right (by omega)]

theorem euclid_eq_gcd (x y : Int) : euclid x y = Nat.gcd x.natAbs y.natAbs := by
  rw [euclid]
  split_ifs with hx hy
  · rw [hx, Nat.gcd_zero_left]
  · rw [hy, Nat.gcd_zero_right]
  · exact euclidLoop_eq_gcd (Nat.pos_of_ne_zero hx) (Nat.pos_of_ne_zero hy) (by omega)

/-! ### STEIN (R133) -/

/-- Halving an even number keeps its gcd with an odd one. -/
theorem gcd_half_left {a b : Nat} (ha : a % 2 = 0) (hb : b % 2 ≠ 0) : Nat.gcd (a / 2) b = Nat.gcd a b := by
  have hodd : Nat.Coprime 2 b := Nat.coprime_two_left.mpr (Nat.odd_iff.mpr (by omega))
  rw [← hodd.gcd_mul_left_cancel (a / 2), Nat.mul_div_cancel' (Nat.dvd_of_mod_eq_zero ha)]

/-- The greater of two odd numbers gives way to half the difference. -/
theorem gcd_half_sub {a b : Nat} (ha : a % 2 ≠ 0) (hb : b % 2 ≠ 0) (hle : a ≤ b) :
    Nat.gcd ((b - a) / 2) a = Nat.gcd a b := by
  rw [gcd_half_left (by omega) ha, Nat.gcd_sub_self_left hle, Nat.gcd_comm]

/-- From positive numbers of at most `i` and `j` bits STEIN needs no more than `i + j - 2` calls: each takes off one bit at
least, and keeps the gcd. -/
theorem steinLoop_eq_gcd {fuel i j a b : Nat} (ha : 1 ≤ a) (hb : 1 ≤ b) (hai : a < 2 ^ i) (hbj : b < 2 ^ j)
    (hfuel : i + j ≤ fuel + 2) : steinLoop fuel a b = Nat.gcd a b := by
  induction fuel generalizing i j a b with
  | zero =>
    obtain _ | i := i
    · omega
    obtain _ | j := j
    · omega
    obtain ⟨rfl, rfl⟩ : i = 0 ∧ j = 0 := by omega
    obtain ⟨rfl, rfl⟩ : a = 1 ∧ b = 1 := by omega
    rfl
  | succ fuel ih =>
    obtain _ | i := i
    · omega
    obtain _ | j := j
    · omega
    rw [pow_succ] at hai hbj
    rw [steinLoop]
    split_ifs with heq ha0 hb0 heven haeven hbeven
    · rw [heq, Nat.gcd_self]
    · omega
    · omega
    · obtain ⟨ha2, hb2⟩ := heven
      rw [ih (i := i) (j := j) (by omega) (by omega) (by omega) (by omega) (by omega), ← Nat.gcd_mul_left,
        Nat.mul_div_cancel' (Nat.dvd_of_mod_eq_zero ha2), Nat.mul_div_cancel' (Nat.dvd_of_mod_eq_zero hb2)]
    · rw [ih (i := i) (j := j + 1) (by omega) hb (by omega) (by rw [pow_succ]; omega) (by omega)]
      exact gcd_half_left haeven (by omega)
    · rw [ih (i := i + 1) (j := j) ha (by omega) (by rw [pow_succ]; omega) (by omega) (by omega), Nat.gcd_comm]
      exact (gcd_half_left hbeven haeven).trans (Nat.gcd_comm b a)
    · obtain hlt | hlt := Nat.lt_or_gt_of_ne heq
      · have hdiff : ((a : Int) - (b : Int)).natAbs = b - a := by omega
        rw [hdiff, Nat.min_eq_left hlt.le,
          ih (i := j) (j := i + 1) (by omega) ha (by omega) (by rw [pow_succ]; omega) (by omega)]
        exact gcd_half_sub haeven hbeven hlt.le
      · have hdiff : ((a : Int) - (b : Int)).natAbs = a - b := by omega
        rw [hdiff, Nat.min_eq_right hlt.le,
          ih (i := i) (j := j + 1) (by omega) hb (by omega) (by rw [pow_succ]; omega) (by omega), Nat.gcd_comm a b]
        exact gcd_half_sub hbeven haeven hlt.le

/-- STEIN on magnitudes of `i` and `j` bits, zeros among them, ends within `i + j` calls. -/
theorem steinLoop_eq_gcd_of_bits {fuel i j a b : Nat} (hai : a < 2 ^ i) (hbj : b < 2 ^ j) (hfuel : i + j ≤ fuel) :
    steinLoop fuel a b = Nat.gcd a b := by
  obtain _ | fuel := fuel
  · obtain ⟨rfl, rfl⟩ : i = 0 ∧ j = 0 := by omega
    obtain ⟨rfl, rfl⟩ : a = 0 ∧ b = 0 := by omega
    rfl
  · by_cases ha : a = 0
    · rw [ha, Nat.gcd_zero_left, steinLoop, if_pos rfl, ite_eq_right_iff]
      exact id
    · by_cases hb : b = 0
      · rw [hb, Nat.gcd_zero_right, steinLoop, if_neg ha, if_neg ha, if_pos rfl]
      · exact steinLoop_eq_gcd (Nat.pos_of_ne_zero ha) (Nat.pos_of_ne_zero hb) hai hbj (by omega)

theorem stein_eq_gcd (x y : Int) : stein x y = Nat.gcd x.natAbs y.natAbs :=
  steinLoop_eq_gcd_of_bits Nat.lt_two_pow_self Nat.lt_two_pow_self le_rfl

/-- Settles O36. -/
theorem pairAlgorithmsComputeTheGcd : Obligations.PairAlgorithmsComputeTheGcd :=
  fun x y => ⟨euclid_eq_gcd x y, stein_eq_gcd x y⟩

theorem pairGcd_eq_gcd (alg : Alg) (x y : Int) : pairGcd alg x y = Nat.gcd x.natAbs y.natAbs := by
  cases alg with
  | euclid => exact euclid_eq_gcd x y
  | stein => exact stein_eq_gcd x y

/-! ### REDUCE (R135) -/

@[simp] theorem gcdOfMagnitudes_nil : gcdOfMagnitudes [] = 0 := rfl

@[simp] theorem gcdOfMagnitudes_cons (a : Int) (l : List Int) :
    gcdOfMagnitudes (a :: l) = Nat.gcd a.natAbs (gcdOfMagnitudes l) := rfl

/-- A round halves the list, an odd element kept. -/
theorem reduceRound_length (g : Int → Int → Nat) (l : List Int) :
    (reduceRound g l).length = (l.length + 1) / 2 := by
  induction l using reduceRound.induct with
  | case1 a b rest ih =>
    rw [reduceRound, List.length_cons, ih, List.length_cons, List.length_cons]
    omega
  | case2 l hshort =>
    rw [reduceRound]
    · match l with
      | [] => rfl
      | [_] => simp
      | a :: b :: rest => exact (hshort a b rest rfl).elim
    · exact hshort

/-- A list of at most `2^(n+2)` elements has at most `2^(n+1)` after a round. -/
theorem reduceRound_length_le {g : Int → Int → Nat} {l : List Int} {n : Nat} (h : l.length ≤ 2 ^ (n + 1 + 1)) :
    (reduceRound g l).length ≤ 2 ^ (n + 1) := by
  rw [reduceRound_length]
  rw [pow_succ] at h
  omega

/-- A list longer than two elements needs a round. -/
theorem not_length_le_two {a b c : Int} {rest : List Int} : ¬ (a :: b :: c :: rest).length ≤ 2 ^ (0 + 1) := by
  simp

/-- On fuel enough for the rounds of the list, more fuel changes nothing. -/
theorem reduceLoop_of_le {g : Int → Int → Nat} {fuel more : Nat} {l : List Int} (hl : l.length ≤ 2 ^ (fuel + 1))
    (hmore : fuel ≤ more) : reduceLoop g more l = reduceLoop g fuel l := by
  induction fuel, l using reduceLoop.induct g generalizing more with
  | case1 => rw [reduceLoop, reduceLoop]
  | case2 => rw [reduceLoop, reduceLoop]
  | case3 => rw [reduceLoop, reduceLoop]
  | case4 => exact absurd hl not_length_le_two
  | case5 fuel a b c rest ih =>
    obtain _ | more := more
    · omega
    · rw [reduceLoop, reduceLoop, ih (reduceRound_length_le hl) (by omega)]

/-- REDUCE's own fuel, the length of the list, is enough. -/
theorem length_le_two_pow (l : List Int) : l.length ≤ 2 ^ (l.length + 1) :=
  Nat.lt_two_pow_self.le.trans (Nat.pow_le_pow_right two_pos (Nat.le_succ _))

/-- REDUCE on any fuel enough for the rounds of the list. -/
theorem reduceLoop_eq_reduce {g : Int → Int → Nat} {fuel : Nat} {l : List Int} (hl : l.length ≤ 2 ^ (fuel + 1)) :
    reduceLoop g fuel l = reduce l g := by
  obtain h | h := Nat.le_total fuel l.length
  · exact (reduceLoop_of_le hl h).symm
  · exact reduceLoop_of_le (length_le_two_pow l) h

/-- Settles O41: the bounds of EUCLID's loop, of STEIN on 32 bits each, and of REDUCE. -/
theorem gcdLoopsEndWithinTheirBounds : Obligations.GcdLoopsEndWithinTheirBounds := by
  have word {n : Nat} (h : n ≤ 2 ^ 31) : n < 2 ^ 32 := by omega
  exact ⟨fun a b fuel ha hb hfuel => euclidLoop_eq_gcd ha hb (by omega),
    fun a b fuel ha hb hfuel => steinLoop_eq_gcd_of_bits (word ha) (word hb) hfuel,
    fun g l fuel _ hl => reduceLoop_eq_reduce hl⟩

section

variable {g : Int → Int → Nat} (hg : ∀ x y, g x y = Nat.gcd x.natAbs y.natAbs)
include hg

/-- A round of gcds keeps the gcd of the list. -/
theorem gcdOfMagnitudes_reduceRound (l : List Int) : gcdOfMagnitudes (reduceRound g l) = gcdOfMagnitudes l := by
  induction l using reduceRound.induct with
  | case1 a b rest ih =>
    rw [reduceRound, gcdOfMagnitudes_cons, ih, Int.natAbs_natCast, hg, Nat.gcd_assoc, gcdOfMagnitudes_cons,
      gcdOfMagnitudes_cons]
  | case2 l hshort => rw [reduceRound]; exact hshort

/-- Rounds of gcds end with the gcd of the list. -/
theorem reduceLoop_eq_gcdOfMagnitudes {fuel : Nat} {l : List Int} (hl : l.length ≤ 2 ^ (fuel + 1)) :
    reduceLoop g fuel l = gcdOfMagnitudes l := by
  induction fuel, l using reduceLoop.induct g with
  | case1 => simp [reduceLoop]
  | case2 => simp [reduceLoop]
  | case3 _ a b => simp [reduceLoop, hg]
  | case4 => exact absurd hl not_length_le_two
  | case5 fuel a b c rest ih =>
    rw [reduceLoop, ih (reduceRound_length_le hl), gcdOfMagnitudes_reduceRound hg]

end

/-- REDUCE with either pair algorithm is the gcd of the list (R144). -/
theorem reduce_eq_gcdOfMagnitudes (l : List Int) (alg : Alg) : reduce l (pairGcd alg) = gcdOfMagnitudes l :=
  reduceLoop_eq_gcdOfMagnitudes (pairGcd_eq_gcd alg) (length_le_two_pow l)

/-- The gcd of a list depends neither on the order nor on the signs. -/
theorem gcdOfMagnitudes_perm {l m : List Int} (h : (l.map Int.natAbs).Perm (m.map Int.natAbs)) :
    gcdOfMagnitudes l = gcdOfMagnitudes m := by
  have fold (k : List Int) : gcdOfMagnitudes k = (k.map Int.natAbs).foldr Nat.gcd 0 := List.foldr_map.symm
  have comm : LeftCommutative Nat.gcd := ⟨Nat.gcd_left_comm⟩
  rw [fold, fold, h.foldr_eq]

/-- Settles O37. -/
theorem reduceComputesTheGcdOfTheList : Obligations.ReduceComputesTheGcdOfTheList := by
  refine ⟨fun l alg _ => reduce_eq_gcdOfMagnitudes l alg, fun l m alg other _ hperm => ?_⟩
  rw [reduce_eq_gcdOfMagnitudes, reduce_eq_gcdOfMagnitudes, gcdOfMagnitudes_perm hperm]

/-- Settles O38: on three and on two entries REDUCE unfolds to the pair algorithm (R135). -/
theorem listJobAgreesWithFixedArity : Obligations.ListJobAgreesWithFixedArity :=
  fun _ _ _ _ => ⟨rfl, rfl⟩

/-- Settles O40: each value is the gcd of its list. -/
theorem gcdValuesOfTheSource : Obligations.GcdValuesOfTheSource := by
  intro alg
  simp only [reduce_eq_gcdOfMagnitudes]
  refine ⟨rfl, fun a _ => ?_, rfl, rfl⟩
  rw [gcdOfMagnitudes_cons, gcdOfMagnitudes_cons, gcdOfMagnitudes_nil, Nat.gcd_zero_right, Nat.gcd_self]

/-! ### The result of a job (R146) -/

/-- A number divides the gcd of a list exactly when it divides every magnitude. -/
theorem dvd_gcdOfMagnitudes_iff (d : Nat) (l : List Int) : d ∣ gcdOfMagnitudes l ↔ ∀ a ∈ l, d ∣ a.natAbs := by
  induction l with
  | nil => simp
  | cons a l ih => rw [gcdOfMagnitudes_cons, Nat.dvd_gcd_iff, ih, List.forall_mem_cons]

/-- GCDRESULT is the gcd of the operands' magnitudes, whatever the job's kind and algorithm. -/
theorem gcdResult_eq_gcdOfMagnitudes {job : Job} (h : job.isGcd = true) :
    gcdResult job = gcdOfMagnitudes (job.operands.map sint) := by
  cases job with
  | enc w => cases h
  | gcd2 alg a b => simp [gcdResult, Job.operands, pairGcd_eq_gcd]
  | gcd3 alg a b c => simp [gcdResult, Job.operands, pairGcd_eq_gcd, Nat.gcd_assoc]
  | gcdn alg ops => exact reduce_eq_gcdOfMagnitudes _ alg

/-- A number divides a job's result exactly when it divides the magnitude of every operand. -/
theorem dvd_gcdResult_iff {job : Job} (h : job.isGcd = true) (d : Nat) :
    d ∣ gcdResult job ↔ ∀ v ∈ job.operands, d ∣ (sint v).natAbs := by
  rw [gcdResult_eq_gcdOfMagnitudes h, dvd_gcdOfMagnitudes_iff, List.forall_mem_map]

/-- Only the word 0 has the magnitude 0. -/
theorem natAbs_sint_eq_zero_iff (v : Word) : (sint v).natAbs = 0 ↔ v = 0 := by
  rw [Int.natAbs_eq_zero, sint, ← BitVec.toInt_inj]
  rfl

/-- Only the words 0 and 0x80000000 have a magnitude that 2^31 divides (R130). -/
theorem two_pow_31_dvd_natAbs_sint_iff (v : Word) : 2 ^ 31 ∣ (sint v).natAbs ↔ v = 0 ∨ v = 0x8000_0000 := by
  have hzero : v = 0 ↔ v.toNat = 0 := BitVec.toNat_inj.symm
  have hmin : v = 0x8000_0000 ↔ v.toNat = 2 ^ 31 := BitVec.toNat_inj.symm
  have hlt : v.toNat < 2 ^ 32 := v.isLt
  rw [hzero, hmin, sint, BitVec.toInt_eq_toNat_cond]
  split_ifs <;> omega

/-- The result is 0 exactly when every operand is. -/
theorem gcdResult_eq_zero_iff {job : Job} (h : job.isGcd = true) :
    gcdResult job = 0 ↔ ∀ v ∈ job.operands, v = 0 := by
  rw [← Nat.zero_dvd, dvd_gcdResult_iff h]
  exact forall₂_congr fun v _ => by rw [Nat.zero_dvd, natAbs_sint_eq_zero_iff]

/-- The result is 2^31 exactly when 2^31 divides it and it is not 0: it is at most 2^31. -/
theorem gcdResult_eq_two_pow_31_iff {job : Job} (h : job.isGcd = true) :
    gcdResult job = 2 ^ 31 ↔
      (∀ v ∈ job.operands, v = 0 ∨ v = 0x8000_0000) ∧ ∃ v ∈ job.operands, v = 0x8000_0000 := by
  have hle : gcdResult job ≤ 2 ^ 31 := gcdResult_le job
  have hdvd : 2 ^ 31 ∣ gcdResult job ↔ ∀ v ∈ job.operands, v = 0 ∨ v = 0x8000_0000 := by
    rw [dvd_gcdResult_iff h]
    exact forall₂_congr fun v _ => two_pow_31_dvd_natAbs_sint_iff v
  have hsplit : gcdResult job = 2 ^ 31 ↔ 2 ^ 31 ∣ gcdResult job ∧ gcdResult job ≠ 0 := by omega
  rw [hsplit, hdvd, Ne, gcdResult_eq_zero_iff h]
  refine and_congr_right fun hall => ⟨fun hne => ?_, ?_⟩
  · push Not at hne
    obtain ⟨v, hv, hv0⟩ := hne
    exact ⟨v, hv, (hall v hv).resolve_left hv0⟩
  · rintro ⟨v, hv, rfl⟩ hzero
    exact absurd (hzero _ hv) (by decide)

/-- Settles O39. -/
theorem gcdResultFitsTheRegister : Obligations.GcdResultFitsTheRegister := by
  intro job nMax hgcd _
  have hle : gcdResult job ≤ 2 ^ 31 := gcdResult_le job
  refine ⟨hle, gcdResult_eq_zero_iff hgcd, gcdResult_eq_two_pow_31_iff hgcd, ?_⟩
  rw [BitVec.toNat_ofNat, Nat.mod_eq_of_lt (by omega)]

end Sys2Proof.Machine
end

section
/-! PROOFS. The commands (spec/30_encoding.md R85): what each of them does to an idle block, and that a busy one discards
every word (spec/60_exceptions.md R186). -/

namespace Sys2Proof.Machine

/-- Settles O1. -/
theorem decodeOfSampleWords : Obligations.DecodeOfSampleWords := by
  unfold Obligations.DecodeOfSampleWords
  decide

/-! ### A command presented at CMD -/

theorem exec_idle {s : State} (i : Instr) (idle : s.pend = none) : exec i s = .next (acceptOf i (clearOverrun s)) := by
  rw [exec_eq, presentCommand_idle _ idle]

theorem exec_busy {s : State} (i : Instr) (busy : s.pend ≠ none) : exec i s = .next (discardCommand s) := by
  rw [exec_eq, presentCommand_busy _ busy]

/-- Every command, in every state, has a next state (R86). -/
theorem exec_defined (i : Instr) (s : State) : ∃ t, exec i s = .next t := by
  by_cases idle : s.pend = none
  · exact ⟨_, exec_idle i idle⟩
  · exact ⟨_, exec_busy i idle⟩

/-- The word of a command, written to CMD, runs the command, whether the block is idle or busy (R85). -/
theorem issue_eq_exec {v : Word} {i : Instr} (hd : decode v = .command i) (s : State) : issue v s = exec i s := by
  by_cases idle : s.pend = none
  · rw [issue_command idle hd, exec_idle i idle]
  · rw [issue_busy v idle, exec_busy i idle]

/-- Settles O16. -/
theorem commandWhileBusyIsDiscarded : Obligations.CommandWhileBusyIsDiscarded :=
  fun _ busy => ⟨fun i => exec_busy i busy, fun w => issue_busy w busy⟩

/-! ### The results of a completion -/

/-- The completion of an ENC job leaves ENCODE of the job's word in ENC_OUT (R112). -/
theorem complete_encOut {s : State} {w : DWord} (hpend : s.pend = some (.enc w)) :
    (complete s).encOutHi ++ (complete s).encOutLo = encodeFloat w := by
  rw [encCompletionWritesBothHalves s w hpend]
  exact hiHalf_append_loHalf (encodeFloat w)

/-- The completion of a GCD job leaves the job's result in GCD_RES (R142). -/
theorem complete_gcdRes {s : State} {job : Job} (hpend : s.pend = some job) (hgcd : job.isGcd = true) :
    (complete s).gcdRes = BitVec.ofNat 32 (gcdResult job) := by
  rw [complete_of_isGcd hpend hgcd]

/-! ### The commands that start a job -/

/-- Settles O9. -/
theorem encStartsTheEncodeJob : Obligations.EncStartsTheEncodeJob :=
  fun s idle => ⟨_, exec_idle .enc idle, startJob_spec s _, complete_encOut rfl⟩

/-- A GCD command whose accept procedure starts a job, on an idle block: the job, and the result of its completion. -/
theorem exec_starts {s : State} {i : Instr} {job : Job} (idle : s.pend = none)
    (haccept : acceptOf i (clearOverrun s) = startJob job (clearOverrun s)) (hgcd : job.isGcd = true) :
    ∃ t, exec i s = .next t ∧ s.StartsJob t job ∧ (complete t).gcdRes = BitVec.ofNat 32 (gcdResult job) :=
  ⟨startJob job (clearOverrun s), haccept ▸ exec_idle i idle, startJob_spec s job, complete_gcdRes rfl hgcd⟩

/-- Settles O10. -/
theorem gcd2StartsThePairJob : Obligations.Gcd2StartsThePairJob :=
  fun _ idle => ⟨exec_starts idle rfl rfl, exec_starts idle rfl rfl⟩

/-- Settles O11. -/
theorem gcd3StartsTheTripleJob : Obligations.Gcd3StartsTheTripleJob :=
  fun _ idle => ⟨exec_starts idle rfl rfl, exec_starts idle rfl rfl⟩

/-- With a count within the buffer GCDN starts the job on the head of the buffer (R140). -/
theorem acceptGcdn_of_count_fits {s : State} (alg : Alg) (enough : 2 ≤ s.gcdCount.toNat)
    (fits : s.gcdCount.toNat ≤ s.gcdBuf.length) :
    acceptGcdn alg s = startJob (.gcdn alg (s.gcdBuf.take s.gcdCount.toNat)) s := by
  rw [acceptGcdn, count_eq, pNMax_eq, if_neg (Nat.not_lt.mpr enough), if_neg (Nat.not_lt.mpr fits),
    bufEntries_eq_take s _ fits]

/-- Settles O12. -/
theorem gcdnStartsTheListJob : Obligations.GcdnStartsTheListJob := fun s idle enough fits =>
  ⟨exec_starts idle (acceptGcdn_of_count_fits (s := clearOverrun s) .euclid enough fits) rfl,
    exec_starts idle (acceptGcdn_of_count_fits (s := clearOverrun s) .stein enough fits) rfl⟩

/-! ### The errors of GCDN -/

theorem acceptGcdn_of_count_lt_two {s : State} (alg : Alg) (few : s.gcdCount.toNat < 2) :
    acceptGcdn alg s = raiseError .invalidArity s := by
  rw [acceptGcdn, count_eq, if_pos few]

theorem acceptGcdn_of_capacity_lt_count {s : State} (alg : Alg) (enough : 2 ≤ s.gcdCount.toNat)
    (many : s.gcdBuf.length < s.gcdCount.toNat) : acceptGcdn alg s = raiseError .capacity s := by
  rw [acceptGcdn, count_eq, pNMax_eq, if_neg (Nat.not_lt.mpr enough), if_pos many]

/-- An accept procedure that records an error, on an idle block, is the error entry. -/
theorem exec_errs {s : State} {i : Instr} {code : ErrCode} (idle : s.pend = none)
    (haccept : acceptOf i (clearOverrun s) = raiseError code (clearOverrun s)) :
    exec i s = .next { s with errcode := code, overrun := false } := by
  rw [exec_idle i idle, haccept, ← errorEntry_eq, errorEntry]

/-- Settles O15. -/
theorem gcdnRaisesOnBadCount : Obligations.GcdnRaisesOnBadCount := fun s idle =>
  ⟨fun few => ⟨exec_errs idle (acceptGcdn_of_count_lt_two (s := clearOverrun s) .euclid few),
      exec_errs idle (acceptGcdn_of_count_lt_two (s := clearOverrun s) .stein few)⟩,
    fun enough many => ⟨exec_errs idle (acceptGcdn_of_capacity_lt_count (s := clearOverrun s) .euclid enough many),
      exec_errs idle (acceptGcdn_of_capacity_lt_count (s := clearOverrun s) .stein enough many)⟩⟩

/-! ### The old status does not matter (R25, R190) -/

/-- Starting a job overwrites ERRCODE. -/
theorem startJob_raiseError (job : Job) (code : ErrCode) (s : State) :
    startJob job (raiseError code s) = startJob job s := by
  unfold startJob drawLatency
  rw [raiseError_latencies]
  cases s.latencies <;> rfl

/-- Every accept procedure overwrites ERRCODE. -/
theorem acceptOf_raiseError (i : Instr) (code : ErrCode) (s : State) : acceptOf i (raiseError code s) = acceptOf i s := by
  have gcdn (alg : Alg) : acceptGcdn alg (raiseError code s) = acceptGcdn alg s := by
    rw [acceptGcdn, acceptGcdn, startJob_raiseError]
    rfl
  cases i with
  | nop => rfl
  | gcdnE => exact gcdn .euclid
  | gcdnS => exact gcdn .stein
  | _ => exact startJob_raiseError _ code s

/-- What an idle block does with a word does not depend on ERRCODE. -/
theorem issue_raiseError {s : State} (w : Word) (code : ErrCode) (idle : s.pend = none) :
    issue w (raiseError code s) = issue w s := by
  have idle' : (raiseError code s).pend = none := idle
  cases hd : decode w with
  | illegal why =>
    rw [issue_illegal idle hd, issue_illegal idle' hd]
    rfl
  | command i =>
    have hclear : clearOverrun (raiseError code s) = raiseError code (clearOverrun s) := rfl
    rw [issue_command idle hd, issue_command idle' hd, hclear, acceptOf_raiseError]

/-- An accepted word leaves OVERRUN clear (R25). -/
theorem issue_idle_overrun {w : Word} {s t : State} (idle : s.pend = none) (h : issue w s = .next t) :
    t.overrun = false := by
  cases issue_effect h with
  | store _ _ hcmd => exact absurd rfl hcmd
  | discard _ busy => exact absurd idle busy
  | record => rfl
  | start => simp

/-- Settles O17. -/
theorem acceptedWordRewritesTheStatus : Obligations.AcceptedWordRewritesTheStatus := by
  intro w s t u code idle ht hu
  have same : issue w s = .next u := (issue_raiseError w code idle).symm.trans hu
  cases same.symm.trans ht
  exact ⟨issue_idle_overrun idle ht, rfl⟩

end Sys2Proof.Machine
end

section
/-! PROOFS. The bus and the step (spec/20_memory.md): the order of a step (R63), what an access leaves unchanged (R56), which
accesses are refused (R53), the pseudo-instructions of spec/30_encoding.md R90 and the reset step (R210). -/

namespace Sys2Proof.Machine

/-! ### The step -/

/-- With no job pending no completion is due. -/
theorem completionDue_idle {s : State} (idle : s.pend = none) : completionDue s = false := by
  rw [Bool.eq_false_iff, Ne, completionDue_iff]
  exact fun h => h.1 idle

/-- With a line to come and latency left no completion is due. -/
theorem completionDue_of_latency {s : State} {line : HostLine} {rest : List HostLine} (hhost : s.host = line :: rest)
    (hlatency : s.latency ≠ 0) : completionDue s = false := by
  rw [Bool.eq_false_iff, Ne, completionDue_iff]
  rintro ⟨-, h | h⟩
  · exact hlatency h
  · cases hhost.symm.trans h

/-- Settles O5: the three branches of a step. -/
theorem stepTakesCompletionThenHostLine : Obligations.StepTakesCompletionThenHostLine := by
  intro s
  refine ⟨fun busy h => step_due ((completionDue_iff s).mpr ⟨busy, h⟩), fun line rest hhost h => ?_,
    fun idle hhost => step_idle (completionDue_idle idle) hhost⟩
  have due : completionDue s = false := h.elim completionDue_idle (completionDue_of_latency hhost)
  exact step_line due hhost

/-- A word written to CMD as the next line runs the command it decodes to. -/
theorem step_command {s : State} {v : Word} {rest : List HostLine} {i : Instr} (hhost : s.host = .wr 0x000 v :: rest)
    (due : completionDue s = false) (hd : decode v = .command i) : step s = exec i (takeLine rest s) := by
  rw [step_line due hhost, hostMove_wr_cmd, issue_eq_exec hd]

/-- Settles O4: the second clause is the first for a word placed in front, which is taken off again. -/
theorem stepRunsTheDecodedCommand : Obligations.StepRunsTheDecodedCommand := by
  refine ⟨fun s v rest i hhost due hd => step_command hhost due hd, fun s v i hd => ?_⟩
  have hword : tableWord 32 v.toNat = v := by
    rw [tableWord, Nat.mod_eq_of_lt v.isLt, BitVec.ofNat_toNat, BitVec.setWidth_eq]
  have due : completionDue (withCommand v s) = false :=
    completionDue_of_latency (withCommand_host v s) (Nat.succ_ne_zero s.latency)
  rw [State.withFetchWord, hword, step_command (withCommand_host v s) due hd]
  rfl

/-! ### What an access leaves unchanged (R56) -/

/-- Two offsets lie in one row of the map only where it is the reserved one. -/
theorem regAt_ne {nMax o off : Nat} (hne : o ≠ off) (hr : regAt nMax off ≠ .reserved) :
    regAt nMax o ≠ regAt nMax off := by
  intro heq
  have hrow : mapRow nMax off (regAt nMax off) := regAt_mapRow nMax off
  have hrow' : mapRow nMax o (regAt nMax off) := (regAt_eq_iff nMax o _).mp heq
  cases hreg : regAt nMax off with
  | reserved => exact hr hreg
  | _ =>
    rw [hreg] at hrow hrow'
    simp only [mapRow] at hrow hrow'
    omega

/-- A write to a register leaves every other register reading as before (R55). -/
theorem readRegister_writeRegister_ne (s : State) (v : Word) {q r : Reg} (hne : q ≠ r) :
    readRegister (writeRegister s v r) q = readRegister s q := by
  obtain ⟨rfl, hw⟩ | ⟨rfl, hw⟩ | ⟨rfl, hw⟩ | ⟨i, rfl, hw⟩ | hw := writeRegister_spec s v r <;> rw [hw]
  · cases q with
    | gcdCount => exact absurd rfl hne
    | _ => rfl
  · cases q with
    | encInLo => exact absurd rfl hne
    | _ => rfl
  · cases q with
    | encInHi => exact absurd rfl hne
    | _ => rfl
  · cases q with
    | gcdBuf j =>
      have hij : i ≠ j := fun h => hne (congrArg Reg.gcdBuf h.symm)
      simp only [readRegister, State.bufEntry, List.getD_eq_getElem?_getD, List.getElem?_set_ne hij]
    | gcdCap => simp only [readRegister, pNMax_eq, List.length_set]
    | _ => rfl

/-- A write to an operand register stores the value (R55). -/
theorem readRegister_writeRegister_gcdBuf {s : State} {i : Nat} (v : Word) (hi : i < s.gcdBuf.length) :
    readRegister (writeRegister s v (.gcdBuf i)) (.gcdBuf i) = v := by
  have hlength : i < (writeRegister s v (.gcdBuf i)).gcdBuf.length := by simpa [writeRegister] using hi
  rw [readRegister_gcdBuf hlength]
  exact List.getElem_set_self _

/-- READ after a write to a register reads the map of the same capacity. -/
theorem readWindow_writeRegister (s : State) (v : Word) (r : Reg) (o : Nat) :
    readWindow (writeRegister s v r) o = readRegister (writeRegister s v r) (regAt s.gcdBuf.length o) := by
  obtain ⟨-, -, -, -, -, -, hcap⟩ := writeRegister_frame s v r
  rw [readWindow, pNMax_eq, hcap]

/-- A write at an offset leaves every other offset reading as before (R56). -/
theorem readWindow_writeRegister_ne (s : State) (v : Word) {o off : Nat} (hne : o ≠ off) :
    readWindow (writeRegister s v (regAt s.gcdBuf.length off)) o = readWindow s o := by
  by_cases hr : regAt s.gcdBuf.length off = .reserved
  · rw [hr, writeRegister]
  · rw [readWindow_writeRegister, readRegister_writeRegister_ne s v (regAt_ne hne hr), readWindow, pNMax_eq]

/-- A write at an operand register's offset is read back there (R56). -/
theorem readWindow_writeRegister_same {s : State} (v : Word) {off : Nat} (haligned : off % 4 = 0)
    (hdata : off = 0x00C ∨ off = 0x010 ∨ off = 0x014 ∨ (0x100 ≤ off ∧ off < 0x100 + 4 * s.gcdBuf.length)) :
    readWindow (writeRegister s v (regAt s.gcdBuf.length off)) off = v := by
  rw [readWindow_writeRegister]
  obtain rfl | rfl | rfl | ⟨hlow, hhigh⟩ := hdata
  · rfl
  · rfl
  · rfl
  · have hi : (off - 0x100) / 4 < s.gcdBuf.length := by omega
    have hoff : off = 0x100 + 4 * ((off - 0x100) / 4) := by omega
    have hreg : regAt s.gcdBuf.length off = .gcdBuf ((off - 0x100) / 4) := (regAt_eq_iff _ _ _).mpr ⟨hi, hoff⟩
    rw [hreg, readRegister_writeRegister_gcdBuf v hi]

/-- Settles O23: a read changes what it returns alone; a write is the write to a register of the map. -/
theorem accessesHaveNoSideEffect : Obligations.AccessesHaveNoSideEffect := by
  constructor
  · intro s t off h
    cases hostMove_effect h
    exact ⟨⟨rfl, rfl, rfl, rfl, rfl, rfl, rfl, rfl, rfl, rfl⟩, fun o => rfl⟩
  · intro s t off v hcmd h
    obtain ⟨_, hline, -⟩ | ⟨_, hline, -⟩ | ⟨_, _, hline, -, haligned, ht⟩ | ⟨_, _, _, hline, -⟩ | ⟨hline, -⟩ :=
      hostMove_cases (.wr off v) s t h <;> cases hline
    · exact absurd rfl hcmd
    · obtain ⟨he, ho, hp, hresults, hhost, -⟩ := writeRegister_frame s v (regAt s.gcdBuf.length off)
      subst ht
      exact ⟨fun o hne => readWindow_writeRegister_ne s v hne, readWindow_writeRegister_same v haligned, he, ho, hp,
        hresults, hhost⟩

/-! ### Refused accesses (R53) -/

/-- An offset that is refused is refused to every transaction of 32 bits. -/
theorem hostMove_of_offsetRefusal {off : Nat} {r : Refusal} (h : offsetRefusal off = some r) (s : State) :
    hostMove (.rd off) s = .refused r ∧ (∀ v, hostMove (.wr off v) s = .refused r) ∧
    ∀ mask value, hostMove (.poll off mask value) s = .refused r := by
  simp [hostMove, h]

/-- Beyond the window an offset is refused as outsideWindow, aligned or not. -/
theorem offsetRefusal_outside {off : Nat} (h : 0x1000 ≤ off) : offsetRefusal off = some .outsideWindow :=
  if_pos (decide_eq_false (Nat.not_lt.mpr h))

/-- Inside the window an offset that is no multiple of 4 is refused as misaligned. -/
theorem offsetRefusal_misaligned {off : Nat} (hlow : off < 0x1000) (hmis : off % 4 ≠ 0) :
    offsetRefusal off = some .misaligned := by
  have inside : offsetInWindow off = true := decide_eq_true hlow
  have misaligned : offsetAligned off = false := decide_eq_false hmis
  rw [offsetRefusal, inside, misaligned]
  rfl

/-- An offset that is not refused is admitted. -/
theorem offsetRefusal_of_not_ok {off : Nat} (h : offsetOk off = false) : ∃ r, offsetRefusal off = some r := by
  rw [← Option.ne_none_iff_exists', Ne, offsetRefusal_eq_none, h]
  exact Bool.false_ne_true

/-- A line that is not admitted is refused. -/
theorem hostMove_not_admitted {line : HostLine} (h : line.wf = false) (s : State) :
    ∃ r, hostMove line s = .refused r := by
  cases line with
  | rd off =>
    obtain ⟨r, hr⟩ := offsetRefusal_of_not_ok h
    obtain ⟨hrd, -, -⟩ := hostMove_of_offsetRefusal hr s
    exact ⟨r, hrd⟩
  | wr off v =>
    obtain ⟨r, hr⟩ := offsetRefusal_of_not_ok h
    obtain ⟨-, hwr, -⟩ := hostMove_of_offsetRefusal hr s
    exact ⟨r, hwr v⟩
  | poll off mask value =>
    obtain ⟨r, hr⟩ := offsetRefusal_of_not_ok h
    obtain ⟨-, -, hpoll⟩ := hostMove_of_offsetRefusal hr s
    exact ⟨r, hpoll mask value⟩
  | oddAccess width off => exact ⟨_, rfl⟩
  | reset => cases h

/-- A line has a next state exactly when it is admitted (R53, R221). -/
theorem hostMove_next_iff (line : HostLine) (s : State) : line.wf = true ↔ ∃ t, hostMove line s = .next t := by
  refine ⟨hostMove_admitted line s, fun ⟨t, ht⟩ => ?_⟩
  by_contra hwf
  obtain ⟨r, hr⟩ := hostMove_not_admitted (Bool.not_eq_true _ ▸ hwf) s
  cases ht.symm.trans hr

/-- An access of another width is refused by its place first, then by its width. -/
theorem hostMove_oddAccess (width : OddWidth) (off : Nat) (s : State) :
    hostMove (.oddAccess width off) s = .refused (if off < 0x1000 then .accessWidth else .outsideWindow) := by
  rw [hostMove]
  by_cases h : off < 0x1000
  · have inside : offsetInWindow off = true := decide_eq_true h
    rw [inside, if_pos h]
    rfl
  · have outside : offsetInWindow off = false := decide_eq_false h
    rw [outside, if_neg h]
    rfl

/-- Settles O25. -/
theorem onlyViolatingAccessesAreRefused : Obligations.OnlyViolatingAccessesAreRefused := by
  refine fun s => ⟨fun line => hostMove_next_iff line s, fun width off => hostMove_oddAccess width off s,
    fun off v hlow hmis => ?_, fun off v hhigh => ?_, fun i => exec_defined i s⟩
  · obtain ⟨hrd, hwr, -⟩ := hostMove_of_offsetRefusal (offsetRefusal_misaligned hlow hmis) s
    exact ⟨hrd, hwr v⟩
  · obtain ⟨hrd, hwr, -⟩ := hostMove_of_offsetRefusal (offsetRefusal_outside hhigh) s
    exact ⟨hrd, hwr v⟩

/-! ### The pseudo-instructions (R90) -/

theorem run_two {s t u : State} (hs : step s = .next t) (ht : step t = .next u) :
    Host.Core.run Sys2Proof.core 2 s = .next u :=
  (run_succ 1 hs).trans (run_succ 0 ht)

/-- On an idle block the next line is taken. -/
theorem step_line_idle {s : State} {line : HostLine} {rest : List HostLine} (idle : s.pend = none)
    (hhost : s.host = line :: rest) : step s = hostMove line (takeLine rest s) :=
  step_line (completionDue_idle idle) hhost

/-- On an idle block that stays idle the next two lines are taken. -/
theorem run_two_lines_idle {s t u : State} {first second : HostLine} {rest : List HostLine} (idle : s.pend = none)
    (hhost : s.host = first :: second :: rest) (hfirst : hostMove first (takeLine (second :: rest) s) = .next t)
    (idle' : t.pend = none) (hhost' : t.host = second :: rest) (hsecond : hostMove second (takeLine rest t) = .next u) :
    Host.Core.run Sys2Proof.core 2 s = .next u :=
  run_two ((step_line_idle idle hhost).trans hfirst) ((step_line_idle idle' hhost').trans hsecond)

/-- WR64 ENC_IN on an idle block: two writes, the low half first. -/
theorem run_writeEncIn {s : State} {v : DWord} {rest : List HostLine} (idle : s.pend = none)
    (hhost : s.host = writeEncIn v ++ rest) :
    ∃ latency, Host.Core.run Sys2Proof.core 2 s =
      .next { s with encInLo := loHalf v, encInHi := hiHalf v, host := rest, latency := latency } :=
  ⟨_, run_two_lines_idle idle hhost (hostMove_wr_row (r := .encInLo) _ _ (by decide) (by decide) rfl) idle rfl
    (hostMove_wr_row (r := .encInHi) _ _ (by decide) (by decide) rfl)⟩

/-- RD64 ENC_OUT on an idle block: two reads, the low half first. -/
theorem run_readEncOut {s : State} {rest : List HostLine} (idle : s.pend = none)
    (hhost : s.host = readEncOut ++ rest) :
    ∃ latency, Host.Core.run Sys2Proof.core 2 s =
      .next { s with returned := s.encOutHi :: s.encOutLo :: s.returned, host := rest, latency := latency } :=
  ⟨_, run_two_lines_idle idle hhost (hostMove_rd_row (r := .encOutLo) _ (by decide) rfl) idle rfl
    (hostMove_rd_row (r := .encOutHi) _ (by decide) rfl)⟩

/-- Settles O24. -/
theorem splitRegistersHoldOneDoubleWord : Obligations.SplitRegistersHoldOneDoubleWord := by
  constructor
  · intro s v rest idle hhost
    obtain ⟨latency, hrun⟩ := run_writeEncIn idle hhost
    exact ⟨_, hrun, hiHalf_append_loHalf v, rfl, rfl, rfl, rfl, rfl, ⟨rfl, rfl, rfl⟩, idle⟩
  · intro s rest idle hhost
    obtain ⟨latency, hrun⟩ := run_readEncOut idle hhost
    exact ⟨_, s.encOutHi, s.encOutLo, hrun, rfl, rfl, rfl, rfl, rfl, rfl, rfl, rfl, rfl, rfl, rfl, rfl, rfl⟩

/-- The mask of WAIT leaves BUSY alone of STATUS (R26, R90). -/
theorem statusWord_and_one_eq_zero_iff (s : State) : s.statusWord &&& 1 = 0 ↔ s.pend = none := by
  have busyBit : s.statusWord.getLsbD 0 = s.pend.isSome := statusWord_getLsbD s 0
  rw [← Option.isNone_iff_eq_none, ← Option.isSome_eq_false_iff, ← busyBit]
  change s.statusWord &&& 1#32 = 0 ↔ _
  rw [BitVec.and_one_eq_setWidth_ofBool_getLsbD]
  cases s.statusWord.getLsbD 0 <;> decide

/-- One reading of WAIT: the line is gone once BUSY = 0, and stays in front else (R89, R90). -/
theorem hostMove_waitLine (s : State) :
    hostMove waitLine s = .next (if s.pend = none then hostRead 0x004 s
      else { hostRead 0x004 s with host := waitLine :: s.host }) := by
  have hdone : pollDone 0x004 1 0 s = true ↔ s.pend = none := decide_eq_true_iff.trans (statusWord_and_one_eq_zero_iff s)
  change (if pollDone 0x004 1 0 s = true then _ else _) = _
  by_cases idle : s.pend = none
  · rw [if_pos idle]
    exact if_pos (hdone.mpr idle)
  · rw [if_neg idle]
    exact if_neg (hdone.not.mpr idle)

/-- Settles O26: the step is one reading of WAIT, after which the line stays exactly where a job is pending. -/
theorem waitPollsUntilIdle : Obligations.WaitPollsUntilIdle := by
  intro s rest hhost due
  have hstep := (step_line due hhost).trans (hostMove_waitLine (takeLine rest s))
  rw [takeLine_pend] at hstep
  by_cases idle : s.pend = none
  · rw [if_pos idle] at hstep
    exact ⟨_, hstep, ⟨rfl, rfl, rfl, rfl, rfl, rfl, rfl, rfl, rfl, rfl⟩, rfl, fun _ => rfl, fun busy => absurd idle busy⟩
  · rw [if_neg idle] at hstep
    have hlatency : s.latency ≠ 0 := fun h =>
      Bool.false_ne_true (due.symm.trans ((completionDue_iff s).mpr ⟨idle, .inl h⟩))
    exact ⟨_, hstep, ⟨rfl, rfl, rfl, rfl, rfl, rfl, rfl, rfl, rfl, rfl⟩, rfl, fun h => absurd h idle,
      fun _ => ⟨rfl, Nat.sub_one_add_one hlatency⟩⟩

/-! ### Reset -/

theorem resetBlock_registersAtReset (s : State) : (resetBlock s).RegistersAtReset :=
  ⟨rfl, rfl, rfl, rfl, rfl, rfl, rfl, rfl, rfl, fun _ hv => List.eq_of_mem_replicate hv⟩

/-- Settles O28: the reset line leaves every register at its reset value, and the capacity. -/
theorem resetClearsTheBlock : Obligations.ResetClearsTheBlock := by
  refine fun s => ⟨resetBlock s, rfl, rfl, rfl, rfl, rfl, rfl, rfl, rfl, rfl, rfl, rfl, ⟨rfl, rfl⟩, fun off => ?_⟩
  split_ifs with hcap
  · rw [hcap, readWindow_gcdCap, resetBlock_gcdBuf, List.length_replicate, pNMax_eq]
  · exact readWindow_eq_zero_of_registersAtReset (resetBlock_registersAtReset s) hcap

end Sys2Proof.Machine
end

section
/-! PROOFS. Runs (spec/70_reset_and_hazards.md): the reachable states and their invariants (R222, spec/10_state.md R36), the
end of a job and of a run (R58, R223), and the hazards of a host that does not wait (R214, R217, R218). -/

namespace Sys2Proof.Machine

/-! ### Frames -/

theorem State.SameResults.refl (s : State) : s.SameResults s := ⟨rfl, rfl, rfl⟩

theorem State.SameResults.trans {s t u : State} (hst : s.SameResults t) (htu : t.SameResults u) : s.SameResults u := by
  obtain ⟨hlo, hhi, hres⟩ := hst
  obtain ⟨hlo', hhi', hres'⟩ := htu
  exact ⟨hlo'.trans hlo, hhi'.trans hhi, hres'.trans hres⟩

theorem State.SameOperands.trans {s t u : State} (hst : s.SameOperands t) (htu : t.SameOperands u) :
    s.SameOperands u := by
  obtain ⟨hcount, hlo, hhi, hbuf⟩ := hst
  obtain ⟨hcount', hlo', hhi', hbuf'⟩ := htu
  exact ⟨hcount'.trans hcount, hlo'.trans hlo, hhi'.trans hhi, hbuf'.trans hbuf⟩

/-! ### Reset states and reachable states (R222) -/

theorem State.IsResetState.registersAtReset {s : State} {nMax : Nat} (h : s.IsResetState nMax) :
    s.RegistersAtReset := by
  obtain ⟨-, he, ho, hCount, hInLo, hInHi, hOutLo, hOutHi, hRes, hBuf, hp⟩ := h
  exact ⟨he, ho, hCount, hInLo, hInHi, hOutLo, hOutHi, hRes, hp, fun _ hv => List.eq_of_mem_replicate (hBuf ▸ hv)⟩

theorem State.IsResetState.capacity {s : State} {nMax : Nat} (h : s.IsResetState nMax) :
    s.gcdBuf.length = nMax ∧ Config.pNMaxLeast ≤ nMax ∧ nMax ≤ Config.pNMaxMost := by
  obtain ⟨hlegal, -, -, -, -, -, -, -, -, hBuf, -⟩ := h
  exact ⟨by rw [hBuf, List.length_replicate], hlegal⟩

theorem State.IsResetState.inv {s : State} {nMax : Nat} (h : s.IsResetState nMax) : s.Inv := by
  obtain ⟨hcap, hlegal⟩ := h.capacity
  obtain ⟨-, -, -, -, -, -, -, -, idle, -⟩ := h.registersAtReset
  rw [← hcap] at hlegal
  exact ⟨hlegal, by simp [idle], by simp [idle]⟩

theorem State.IsResetState.resultsInRange {s : State} {nMax : Nat} (h : s.IsResetState nMax) : s.ResultsInRange := by
  obtain ⟨-, -, -, -, -, hOutLo, hOutHi, hRes, -⟩ := h.registersAtReset
  exact resultsInRange_of_zero hOutLo hOutHi hRes

/-- What every reset state has and every step keeps, every reachable state has. -/
theorem State.Reachable.induction {P : State → Prop} (start : ∀ s nMax, s.IsResetState nMax → P s)
    (keep : ∀ s t, P s → step s = .next t → P t) {s : State} (h : s.Reachable) : P s := by
  obtain ⟨nMax, first, k, hfirst, hrun⟩ := h
  exact run_keeps keep (start first nMax hfirst) hrun

/-- A run from a reachable state leads to a reachable state. -/
theorem State.Reachable.run {s t : State} {k : Nat} (h : s.Reachable) (hrun : Host.Core.run Sys2Proof.core k s = .next t) :
    t.Reachable := by
  obtain ⟨nMax, start, j, hstart, hs⟩ := h
  exact ⟨nMax, start, j + k, hstart, (run_add k hs).trans hrun⟩

/-- Settles O43: `State.reset` is the reset state of capacity 64. -/
theorem resetMeetsTheInvariants : Obligations.ResetMeetsTheInvariants :=
  ⟨reset_isResetState.inv, reset_isResetState.resultsInRange⟩

/-- Settles O44: a reset state is reached in no step. -/
theorem resetIsAnIdleLaunchState : Obligations.ResetIsAnIdleLaunchState := by
  refine ⟨fun s nMax h => ?_, reset_isResetState⟩
  obtain ⟨hcap, -⟩ := h.capacity
  obtain ⟨he, ho, -, -, -, -, -, -, idle, -⟩ := h.registersAtReset
  exact ⟨⟨⟨nMax, s, 0, h, rfl⟩, idle, he, ho⟩, by rw [readWindow_gcdCap, hcap],
    fun off hoff => readWindow_eq_zero_of_registersAtReset h.registersAtReset hoff⟩

/-- Settles O45: both invariants by induction over the steps, then the fields of STATUS (R26). -/
theorem reachableStatesMeetTheInvariants : Obligations.ReachableStatesMeetTheInvariants := by
  intro s h
  have hinv : s.Inv := h.induction (fun _ _ => State.IsResetState.inv) stepKeepsTheInvariant
  have hrange : s.ResultsInRange := h.induction (fun _ _ => State.IsResetState.resultsInRange) stepKeepsTheResultsInRange
  have busyBit : s.statusWord.getLsbD 0 = s.pend.isSome := statusWord_getLsbD s 0
  have errBit : s.statusWord.getLsbD 1 = decide (s.errcode ≠ .none) := (statusWord_getLsbD s 1).trans (err_eq s)
  have code_zero : s.errcode = .none ↔ s.statusWord.extractLsb' 4 4 = 0 := errcode_eq_iff s .none
  have ⟨_, busy_clear, _⟩ := hinv
  refine ⟨hinv, hrange, ?_, ?_, fun busy => code_zero.mp (busy_clear (busyBit.symm.trans busy)), ?_⟩
  · rw [busyBit, Option.isSome_iff_ne_none]
  · rw [errBit, decide_eq_true_iff, Ne, code_zero]
  · rw [statusWord_errcode]
    cases s.errcode <;> decide

/-! ### The job in progress -/

/-- What a completion leaves in the result registers is read from the job and those registers alone (R35). -/
theorem complete_sameResults {s t : State} (hp : t.pend = s.pend) (h : s.SameResults t) :
    (complete s).SameResults (complete t) := by
  obtain ⟨hlo, hhi, hres⟩ := h
  obtain ⟨hs, hc⟩ | ⟨w, hs, hc⟩ | ⟨job, hs, hgcd, hc⟩ := complete_cases s
  · have ht : complete t = t := by rw [complete, hp, hs]
    rw [hc, ht]
    exact ⟨hlo, hhi, hres⟩
  · rw [hc, encCompletionWritesBothHalves t w (hp.trans hs)]
    exact ⟨rfl, rfl, hres⟩
  · rw [hc, complete_of_isGcd (hp.trans hs) hgcd]
    exact ⟨hlo, hhi, rfl⟩

/-- Settles O51: no write reaches the job or the result registers while a job is pending. -/
theorem operandWritesDoNotReachTheJob : Obligations.OperandWritesDoNotReachTheJob := by
  refine ⟨fun s t _ hp hsame => complete_sameResults hp hsame, fun s t off v busy h => ?_⟩
  obtain ⟨hline, -⟩ | ⟨hp, -, hsame⟩ := (hostMove_effect h).busy_frame busy
  · cases hline
  · exact ⟨hp, complete_sameResults hp hsame⟩

/-- With a job pending a step completes it, resets the block, or takes one line of its latency, the job left as it was. -/
theorem step_busy {s t : State} (busy : s.pend ≠ none) (h : step s = .next t) :
    t = complete s ∨ (.reset ∈ s.host ∧ t.pend = none) ∨
    (s.latency ≠ 0 ∧ t.pend = s.pend ∧ t.latency = s.latency - 1 ∧ s.SameResults t) := by
  obtain ⟨-, ht⟩ | ⟨due, hhost, -⟩ | ⟨due, line, rest, hhost, hline⟩ := step_cases s t h
  · exact .inl ht
  · exact absurd ((completionDue_iff s).mpr ⟨busy, .inr hhost⟩) (Bool.eq_false_iff.mp due)
  · obtain ⟨rfl, gone⟩ | ⟨hp, hlatency, hsame⟩ := (hostMove_effect hline).busy_frame busy
    · exact .inr (.inl ⟨hhost ▸ List.mem_cons_self, gone⟩)
    · have left : s.latency ≠ 0 := fun hzero =>
        Bool.eq_false_iff.mp due ((completionDue_iff s).mpr ⟨busy, .inl hzero⟩)
      exact .inr (.inr ⟨left, hp, hlatency, hsame⟩)

/-- Settles O53, by induction on the latency left. -/
theorem pendingJobCompletes : Obligations.PendingJobCompletes := by
  intro s busy admitted
  induction hn : s.latency generalizing s with
  | zero =>
    have due : completionDue s = true := (completionDue_iff s).mpr ⟨busy, .inl hn⟩
    obtain ⟨gone, -⟩ := complete_frame s
    exact ⟨1, complete s, le_rfl, le_rfl, run_succ 0 (step_due due), gone, fun _ => State.SameResults.refl _⟩
  | succ n ih =>
    obtain ⟨u, hu⟩ := step_admitted admitted
    obtain rfl | ⟨hreset, gone⟩ | ⟨-, hp, hlatency, hsame⟩ := step_busy busy hu
    · obtain ⟨gone, -⟩ := complete_frame s
      exact ⟨1, complete s, le_rfl, by omega, run_succ 0 hu, gone, fun _ => State.SameResults.refl _⟩
    · exact ⟨1, u, le_rfl, by omega, run_succ 0 hu, gone, fun hno => absurd hreset hno⟩
    · obtain ⟨k, t, -, hk, hrun, gone, hresults⟩ :=
        ih u (hp.trans_ne busy) (step_keeps_hostAdmitted admitted hu) (by omega)
      exact ⟨k + 1, t, by omega, by omega, (run_succ k hu).trans hrun, gone,
        fun hno => (complete_sameResults hp hsame).trans (hresults fun hin => hno (step_host_subset hu hin))⟩

/-! ### The end of a run (R223) -/

/-- Where no completion is due, the next line is taken, unless it is a polling line. -/
theorem step_takes_line {s : State} {line : HostLine} {rest : List HostLine} (due : completionDue s = false)
    (hhost : s.host = line :: rest) (hwf : line.wf = true) (hpoll : line.isPoll = false) :
    ∃ t, step s = .next t ∧ t.host = rest := by
  obtain ⟨t, ht⟩ := hostMove_admitted line (takeLine rest s) hwf
  refine ⟨t, (step_line due hhost).trans ht, ?_⟩
  obtain hrest | ⟨hpoll', -⟩ := (hostMove_effect ht).host
  · exact hrest
  · exact absurd hpoll' (Bool.eq_false_iff.mp hpoll)

/-- The next line is gone after two steps at most: a completion may come before it. -/
theorem run_takes_line {s : State} {line : HostLine} {rest : List HostLine} (hhost : s.host = line :: rest)
    (hwf : line.wf = true) (hpoll : line.isPoll = false) :
    ∃ k t, k ≤ 2 ∧ Host.Core.run Sys2Proof.core k s = .next t ∧ t.host = rest := by
  cases due : completionDue s with
  | true =>
    obtain ⟨gone, -, -, -, ⟨hsame, -⟩, -⟩ := complete_frame s
    obtain ⟨t, ht, hrest⟩ := step_takes_line (completionDue_idle gone) (hsame.trans hhost) hwf hpoll
    exact ⟨2, t, le_rfl, run_two (step_due due) ht, hrest⟩
  | false =>
    obtain ⟨t, ht, hrest⟩ := step_takes_line due hhost hwf hpoll
    exact ⟨1, t, by omega, run_succ 0 ht, hrest⟩

/-- With nothing but resets to come the run is over after one step at most: a job still pending completes, or the first
reset ends it. -/
theorem run_over_of_resets {s : State} {n : Nat} (hhost : s.host = List.replicate n .reset) :
    ∃ k t, k ≤ 1 ∧ Host.Core.run Sys2Proof.core k s = .next t ∧ t.runOver = true ∧ t.host.length ≤ n := by
  by_cases idle : s.pend = none
  · exact ⟨0, s, by omega, rfl, (runOver_iff s).mpr ⟨fun _ hl => List.eq_of_mem_replicate (hhost ▸ hl), idle⟩,
      by rw [hhost, List.length_replicate]⟩
  · cases due : completionDue s with
    | true =>
      obtain ⟨gone, -, -, -, ⟨hsame, -⟩, -⟩ := complete_frame s
      have hhost' : (complete s).host = List.replicate n .reset := hsame.trans hhost
      exact ⟨1, complete s, le_rfl, run_succ 0 (step_due due),
        (runOver_iff _).mpr ⟨fun _ hl => List.eq_of_mem_replicate (hhost' ▸ hl), gone⟩,
        by rw [hhost', List.length_replicate]⟩
    | false =>
      obtain _ | n := n
      · exact absurd ((completionDue_iff s).mpr ⟨idle, .inr hhost⟩) (Bool.eq_false_iff.mp due)
      · refine ⟨1, resetBlock (takeLine (List.replicate n .reset) s), le_rfl, run_succ 0 (step_line due hhost), ?_, ?_⟩
        · exact (runOver_iff _).mpr ⟨fun _ hl => List.eq_of_mem_replicate hl, rfl⟩
        · rw [resetBlock_host, takeLine_host, List.length_replicate]
          exact Nat.le_succ n

/-- Settles O56, by induction on the program: two steps at most for each of its lines, and one for a job after the last. -/
theorem runEndsAfterTheLastHostLine : Obligations.RunEndsAfterTheLastHostLine := by
  intro s program n hhost admitted hpoll
  induction program generalizing s with
  | nil => exact run_over_of_resets hhost
  | cons line rest ih =>
    have hmem : line ∈ s.host := hhost ▸ List.mem_cons_self
    obtain ⟨j, u, hj, hu, hrest⟩ := run_takes_line hhost (admitted line hmem) (hpoll line hmem)
    have hsubset : u.host ⊆ s.host := by
      rw [hhost, hrest]
      exact List.subset_cons_self _ _
    obtain ⟨k, t, hk, ht, hover, hlength⟩ :=
      ih u hrest (fun l hl => admitted l (hsubset hl)) (fun l hl => hpoll l (hsubset hl))
    refine ⟨j + k, t, ?_, (run_add k hu).trans ht, hover, hlength⟩
    rw [List.length_cons]
    omega

theorem idle_of_runOver {s : State} (hover : s.runOver = true) : s.pend = none := by
  obtain ⟨-, idle⟩ := (runOver_iff s).mp hover
  exact idle

/-- A run with no line left and no job stays where it is (R199). -/
theorem run_of_rest {s : State} (idle : s.pend = none) (hhost : s.host = []) (k : Nat) :
    Host.Core.run Sys2Proof.core k s = .next s := by
  induction k with
  | zero => rfl
  | succ k ih => rw [run_succ k (step_idle (completionDue_idle idle) hhost), ih]

/-- Once a run is over its next line, if there is one, is a reset, after which it is over too. -/
theorem step_of_runOver {s : State} (hover : s.runOver = true) (hhost : s.host ≠ []) :
    ∃ rest, s.host = .reset :: rest ∧ step s = .next (resetBlock (takeLine rest s)) ∧
      (resetBlock (takeLine rest s)).runOver = true := by
  obtain ⟨hresets, idle⟩ := (runOver_iff s).mp hover
  obtain ⟨line, rest, hcons⟩ := List.exists_cons_of_ne_nil hhost
  obtain rfl : line = .reset := hresets line (hcons ▸ List.mem_cons_self)
  exact ⟨rest, hcons, step_line_idle idle hcons,
    (runOver_iff _).mpr ⟨fun l hl => hresets l (hcons ▸ List.mem_cons_of_mem _ hl), rfl⟩⟩

/-- A job command on an idle block starts its job, GCDN's with a count within the buffer (R85). -/
theorem exec_job_command {s : State} {i : Instr} (idle : s.pend = none) (hjob : i ≠ .nop)
    (hcount : i = .gcdnE ∨ i = .gcdnS → 2 ≤ s.gcdCount.toNat ∧ s.gcdCount.toNat ≤ s.gcdBuf.length) :
    ∃ t job, exec i s = .next t ∧ s.StartsJob t job := by
  obtain ⟨hnop, -⟩ | ⟨hgcdn, few, -⟩ | ⟨hgcdn, -, many, -⟩ | ⟨-, -, job, -, haccept⟩ := acceptOf_cases i (clearOverrun s)
  · exact absurd hnop hjob
  · exact absurd few (Nat.not_lt.mpr (hcount hgcdn).1)
  · exact absurd many (Nat.not_lt.mpr (hcount hgcdn).2)
  · exact ⟨_, job, (exec_idle i idle).trans (congrArg _ haccept), startJob_spec s job⟩

/-- The state with the command's word placed as the one line to come. -/
def withOneCommand (i : Instr) (s : State) : State := { s with host := [.wr 0x000 (encode i)] }

/-- A job command placed as the one line of an idle block is accepted, and its job completes in the step after (R190,
R191). -/
theorem one_command_runs {s : State} {i : Instr} (idle : s.pend = none) (hjob : i ≠ .nop)
    (hcount : i = .gcdnE ∨ i = .gcdnS → 2 ≤ s.gcdCount.toNat ∧ s.gcdCount.toNat ≤ s.gcdBuf.length) :
    ∃ u v, step (withOneCommand i s) = .next u ∧
      u.pend ≠ none ∧ u.errcode = .none ∧ u.overrun = false ∧ s.SameOperands u ∧ s.SameResults u ∧
      step u = .next v ∧ (complete u).SameResults v ∧ s.SameOperands v ∧
      v.errcode = .none ∧ v.overrun = false ∧ v.runOver = true ∧ v.host = [] := by
  obtain ⟨u, job, hexec, hpend, he, ho, hoperands, hresults, ⟨hhost, -⟩⟩ :=
    exec_job_command (s := takeLine [] (withOneCommand i s)) idle hjob hcount
  have hstep : step (withOneCommand i s) = .next u :=
    (step_command (s := withOneCommand i s) rfl (completionDue_idle idle) (decode_encode i)).trans hexec
  have busy : u.pend ≠ none := hpend ▸ Option.some_ne_none job
  have due : completionDue u = true := (completionDue_iff u).mpr ⟨busy, .inr hhost⟩
  obtain ⟨gone, he', ho', hoperands', ⟨hhost', -⟩, -⟩ := complete_frame u
  have hempty : (complete u).host = [] := hhost'.trans hhost
  have hover : (complete u).runOver = true := (runOver_iff _).mpr ⟨by simp [hempty], gone⟩
  exact ⟨u, complete u, hstep, busy, he, ho, hoperands, hresults, step_due due, State.SameResults.refl _,
    hoperands.trans hoperands', he'.trans he, ho'.trans ho, hover, hempty⟩

/-- Settles O46: nothing but resets, then a command after the end, then the end of a reachable state's run. -/
theorem endedRunIsALaunchState : Obligations.EndedRunIsALaunchState := by
  refine ⟨fun s hover => ⟨run_of_rest (idle_of_runOver hover), step_of_runOver hover⟩,
    fun s i hover => one_command_runs (idle_of_runOver hover), fun s program n hreach hhost admitted hpoll => ?_⟩
  obtain ⟨k, t, hk, hrun, hover, hlength⟩ := runEndsAfterTheLastHostLine s program n hhost admitted hpoll
  exact ⟨k, t, hk, hrun, hover, hlength, hreach.run hrun, idle_of_runOver hover, rfl, rfl⟩

/-! ### The hazards of a host that does not wait (R214, R217) -/

theorem run_three {s t u v : State} (hs : step s = .next t) (ht : step t = .next u) (hu : step u = .next v) :
    Host.Core.run Sys2Proof.core 3 s = .next v :=
  (run_succ 2 hs).trans (run_two ht hu)

/-- A job takes the latency that has been drawn for it (R219). -/
theorem startJob_latency {s : State} {d : Nat} {ds : List Nat} (job : Job) (h : s.latencies = d :: ds) :
    (startJob job s).latency = d := by
  unfold startJob drawLatency
  rw [h]

/-- The state after the first of the two commands. -/
def afterFirstCommand (s : State) : State :=
  startJob (.gcd2 .euclid (s.bufEntry 0) (s.bufEntry 1))
    (clearOverrun (takeLine [.wr 0x000 (encode .gcd2S)] s))

theorem afterFirstCommand_pend (s : State) :
    (afterFirstCommand s).pend = some (.gcd2 .euclid (s.bufEntry 0) (s.bufEntry 1)) := startJob_pend _ _

theorem afterFirstCommand_gcdRes (s : State) : (afterFirstCommand s).gcdRes = s.gcdRes := startJob_gcdRes _ _

theorem afterFirstCommand_gcdBuf (s : State) : (afterFirstCommand s).gcdBuf = s.gcdBuf := startJob_gcdBuf _ _

/-- The first command is accepted: EUCLID's job is pending with the drawn latency, and the second command is to come. -/
theorem first_command_accepted {s : State} {d : Nat} {ds : List Nat} (idle : s.pend = none)
    (hdraw : s.latencies = d :: ds)
    (hhost : s.host = [.wr 0x000 (encode .gcd2E), .wr 0x000 (encode .gcd2S)]) :
    step s = .next (afterFirstCommand s) ∧ (afterFirstCommand s).latency = d ∧
      (afterFirstCommand s).host = [.wr 0x000 (encode .gcd2S)] := by
  refine ⟨?_, startJob_latency _ hdraw, startJob_host _ _⟩
  rw [step_command hhost (completionDue_idle idle) (decode_encode _)]
  exact exec_idle .gcd2E idle

/-- Settles O54: with the draw 0 the first job completes before the second command, else the second is discarded. -/
theorem secondCommandHasTwoOutcomes : Obligations.SecondCommandHasTwoOutcomes := by
  intro s d ds idle hdraw hhost
  obtain ⟨hfirst, hlatency, hsecond⟩ := first_command_accepted idle hdraw hhost
  have hpend := afterFirstCommand_pend s
  have busy : (afterFirstCommand s).pend ≠ none := hpend ▸ Option.some_ne_none _
  constructor
  · rintro rfl
    have due : completionDue (afterFirstCommand s) = true := (completionDue_iff _).mpr ⟨busy, .inl hlatency⟩
    obtain ⟨gone, -, -, ⟨-, -, -, hbuf⟩, ⟨hrest, -⟩, -⟩ := complete_frame (afterFirstCommand s)
    have hentry (i : Nat) : (takeLine [] (complete (afterFirstCommand s))).bufEntry i = s.bufEntry i :=
      bufEntry_congr _ _ (hbuf.trans (afterFirstCommand_gcdBuf s)) i
    have hthird := (step_command (hrest.trans hsecond) (completionDue_idle gone) (decode_encode _)).trans
      (exec_idle (s := takeLine [] (complete (afterFirstCommand s))) .gcd2S gone)
    refine ⟨_, run_three hfirst (step_due due) hthird, ?_, ?_, ?_⟩
    · exact startJob_overrun _ _
    · exact (startJob_gcdRes _ _).trans (complete_gcdRes hpend rfl)
    · rw [← hentry 0, ← hentry 1]
      exact startJob_pend _ _
  · intro hne
    have due : completionDue (afterFirstCommand s) = false :=
      completionDue_of_latency hsecond (hlatency.trans_ne hne)
    have hdiscard := (step_command hsecond due (decode_encode _)).trans
      (exec_busy (s := takeLine [] (afterFirstCommand s)) .gcd2S busy)
    exact ⟨_, run_two hfirst hdiscard, rfl, afterFirstCommand_gcdRes s, hpend⟩

/-- The state after the first read of RD64 ENC_OUT. -/
def afterLowRead (s : State) : State := hostRead 0x018 (takeLine [.rd 0x01C] s)

/-- Settles O55: the low half is read, then the job is due, then the high half is read. -/
theorem splitReadCanTear : Obligations.SplitReadCanTear := by
  intro s w hpend hlatency hhost
  have hpend' : (afterLowRead s).pend = some (.enc w) := hpend
  have hzero : (afterLowRead s).latency = 0 := congrArg (· - 1) hlatency
  have lowRead : step s = .next (afterLowRead s) := by
    have due : completionDue s = false := completionDue_of_latency hhost (by omega)
    rw [step_line due hhost]
    exact hostMove_rd (by decide) _
  have due : completionDue (afterLowRead s) = true :=
    (completionDue_iff _).mpr ⟨hpend' ▸ Option.some_ne_none _, .inl hzero⟩
  have highRead : step (complete (afterLowRead s)) =
      .next (hostRead 0x01C (takeLine [] (complete (afterLowRead s)))) := by
    obtain ⟨gone, -, -, -, ⟨hrest, -⟩, -⟩ := complete_frame (afterLowRead s)
    rw [step_line_idle gone (hrest.trans rfl)]
    exact hostMove_rd (by decide) _
  refine ⟨_, run_three lowRead (step_due due) highRead, ?_⟩
  rw [encCompletionWritesBothHalves (afterLowRead s) w hpend']
  rfl

end Sys2Proof.Machine
end

section
/-! PROOFS. The platform (spec/00_scope.md R8, spec/20_memory.md R53, R62): a line written with addresses is the line in
offsets, wherever the window is placed, and an address outside the window is refused as such. -/

namespace Sys2Proof.Machine

/-- A line of the block's, written on a platform, moves as it does at the block. -/
theorem platformMove_ofBlock (p : Platform) (line : HostLine) (s : State) :
    platformMove p (p.ofBlock line) s = hostMove line s := by
  rw [platformMove, toBlock_ofBlock]

/-- An address outside the window stands for an offset beyond it. -/
theorem offsetOf_outside {p : Platform} {addr : Nat} (h : addr < p.pBase ∨ p.pBase + 0x1000 ≤ addr) :
    0x1000 ≤ p.offsetOf addr := by
  unfold Platform.offsetOf Config.windowBytes
  split_ifs <;> omega

/-- An address in the window stands for an offset inside it. -/
theorem offsetOf_inside {p : Platform} {addr : Nat} (hlow : p.pBase ≤ addr) (hhigh : addr < p.pBase + 0x1000) :
    p.offsetOf addr < 0x1000 := by
  rw [Platform.offsetOf, if_pos hlow]
  omega

/-- Inside the window no offset is refused as being outside. -/
theorem offsetRefusal_inside {off : Nat} (h : off < 0x1000) : offsetRefusal off ≠ some .outsideWindow := by
  have inside : offsetInWindow off = true := decide_eq_true h
  rw [offsetRefusal, inside]
  cases offsetAligned off <;> simp

/-- A transaction of 32 bits is refused only by its offset: what it does at an admitted one has a next state. -/
theorem hostMove_ne_outsideWindow {line : HostLine} {off : Nat} (h : off < 0x1000)
    (hline : line = .rd off ∨ (∃ v, line = .wr off v) ∨ (∃ mask value, line = .poll off mask value) ∨
      ∃ width, line = .oddAccess width off) (s : State) : hostMove line s ≠ .refused .outsideWindow := by
  by_cases hwf : line.wf = true
  · obtain ⟨t, ht⟩ := hostMove_admitted line s hwf
    rw [ht]
    exact nofun
  · have refusal_ne {r : Refusal} (hr : offsetRefusal off = some r) : r ≠ .outsideWindow := fun hout =>
      offsetRefusal_inside h (hr.trans (congrArg some hout))
    rw [Bool.not_eq_true] at hwf
    obtain rfl | ⟨v, rfl⟩ | ⟨mask, value, rfl⟩ | ⟨width, rfl⟩ := hline
    · obtain ⟨r, hr⟩ := offsetRefusal_of_not_ok hwf
      obtain ⟨hrd, -, -⟩ := hostMove_of_offsetRefusal hr s
      simpa [hrd] using refusal_ne hr
    · obtain ⟨r, hr⟩ := offsetRefusal_of_not_ok hwf
      obtain ⟨-, hwr, -⟩ := hostMove_of_offsetRefusal hr s
      simpa [hwr] using refusal_ne hr
    · obtain ⟨r, hr⟩ := offsetRefusal_of_not_ok hwf
      obtain ⟨-, -, hpoll⟩ := hostMove_of_offsetRefusal hr s
      simpa [hpoll] using refusal_ne hr
    · rw [hostMove_oddAccess, if_pos h]
      exact nofun

/-- A program written for a platform is the program in offsets once it comes to the block. -/
theorem withPlatformProgram_ofBlock (p : Platform) (program : List HostLine) (s : State) :
    s.withPlatformProgram p (program.map p.ofBlock) = { s with host := program } := by
  rw [State.withPlatformProgram, List.map_map]
  congr 1
  exact (List.map_congr_left fun line _ => toBlock_ofBlock p line).trans (List.map_id' program)

/-- Settles O57: the lines in offsets, the addresses outside and inside the window, and the programs. -/
theorem platformBasePlacesTheWindow : Obligations.PlatformBasePlacesTheWindow := by
  refine ⟨platformMove_ofBlock, fun p off v s => ⟨platformMove_ofBlock p (.rd off) s, platformMove_ofBlock p (.wr off v) s⟩,
    fun p addr s houtside => ?outside, fun p addr line s hlow hhigh hline => ?inside, fun p q program s k => ?programs⟩
  case outside =>
    have hoff : 0x1000 ≤ p.offsetOf addr := offsetOf_outside houtside
    obtain ⟨hrd, hwr, hpoll⟩ := hostMove_of_offsetRefusal (offsetRefusal_outside hoff) s
    refine ⟨hrd, hwr, hpoll, fun width => ?_⟩
    exact (hostMove_oddAccess width _ s).trans (by rw [if_neg (Nat.not_lt.mpr hoff)])
  case inside =>
    refine hostMove_ne_outsideWindow (offsetOf_inside hlow hhigh) ?_ s
    obtain rfl | ⟨v, rfl⟩ | ⟨mask, value, rfl⟩ | ⟨width, rfl⟩ := hline
    · exact .inl rfl
    · exact .inr (.inl ⟨v, rfl⟩)
    · exact .inr (.inr (.inl ⟨mask, value, rfl⟩))
    · exact .inr (.inr (.inr ⟨width, rfl⟩))
  case programs =>
    rw [withPlatformProgram_ofBlock, withPlatformProgram_ofBlock]
    exact ⟨rfl, rfl⟩

end Sys2Proof.Machine
end
